-- ==== Sys2Proof/Word.lean ====
section
/-! DEFINITION. Word.lean: the widths of the PFCB interface (00_scope.md R7, R8). -/

namespace Sys2Proof

/-- A 32-bit operand, result or binary32 pattern (R8, R13). -/
abbrev Word := BitVec 32

/-- An 8-bit command byte or status register (R8). -/
abbrev Byte := BitVec 8

end Sys2Proof
end

