-- ==== Sys2Proof/Syntax.lean ====
section
/-! DEFINITION. Syntax.lean: requests, the six commands, the host's moves, and the assembly lines of a command stream
(30_encoding.md). -/

namespace Sys2Proof

/-- The request format REQ: 40 bits in two parallel fields (R60). -/
structure Request where
  cmd  : Byte
  opnd : Word
  deriving DecidableEq, Repr

/-- The six legal commands, each with the whole operand word of its request (R64, R65). -/
inductive Instr where
  /-- SRGB8_TO_F32 (40_srgb_codec.md R87). -/
  | srgb8ToF32 (opnd : Word)
  /-- F32_TO_SRGB8 (40_srgb_codec.md R94). -/
  | f32ToSrgb8 (opnd : Word)
  /-- UNORM8_TO_F32 (41_unorm_rescale.md R111). -/
  | unorm8ToF32 (opnd : Word)
  /-- F32_TO_UNORM8 (41_unorm_rescale.md R112). -/
  | f32ToUnorm8 (opnd : Word)
  /-- UNORM16_TO_F32 (41_unorm_rescale.md R113). -/
  | unorm16ToF32 (opnd : Word)
  /-- F32_TO_UNORM16 (41_unorm_rescale.md R114). -/
  | f32ToUnorm16 (opnd : Word)
  deriving DecidableEq, Repr

/-- The non-float side of a command, the field FMT (R61, R63). -/
inductive Format where
  | srgb8
  | unorm8
  | unorm16
  deriving DecidableEq, Repr

/-- The direction of a command, the field DIR (R61, R62). -/
inductive Direction where
  /-- DIR = 0: integer operand, float result. -/
  | intoFloat
  /-- DIR = 1: float operand, integer result. -/
  | outOfFloat
  deriving DecidableEq, Repr

/-- Which conversion an instruction is, without its operand: a mnemonic of R64. -/
structure Mnemonic where
  format    : Format
  direction : Direction
  deriving DecidableEq, Repr

/-- What the host puts into OPND when it issues a request. -/
inductive HostOperand where
  /-- A word the host has. -/
  | word (w : Word)
  /-- `@R`: the RESULT the host reads before it issues the request (R70, 70_reset_and_hazards.md R164). -/
  | lastResult
  deriving DecidableEq, Repr

/-- One move of the host (10_state.md R34). -/
inductive HostMove where
  /-- Present a request and receive its response before the next move. -/
  | request (cmd : Byte) (opnd : HostOperand)
  /-- Present a request; it is accepted and still in flight when the next move lands (R30). -/
  | launch (cmd : Byte) (opnd : HostOperand)
  /-- Read RESULT (R27). -/
  | readResult
  /-- Read STATUS (R27). -/
  | readStatus
  /-- Assert the reset input (70_reset_and_hazards.md R160). -/
  | assertReset
  /-- Release the reset input (R160). -/
  | releaseReset
  deriving DecidableEq, Repr

/-- A decimal literal `d * 10 ^ (-scale)`, with its sign (R70). -/
structure Decimal where
  negative : Bool
  digits   : Nat
  scale    : Nat
  deriving DecidableEq, Repr

/-- The operand of an assembly line (R70). -/
inductive AsmOperand where
  /-- `0x` and hexadecimal digits. -/
  | hex (n : Nat)
  /-- A decimal literal followed by `f`. -/
  | dec (d : Decimal)
  /-- `@R`. -/
  | atR
  deriving DecidableEq, Repr

/-- One line of assembly (R70, R71). -/
inductive Line where
  /-- `MNEMONIC operand`. -/
  | command (m : Mnemonic) (operand : AsmOperand)
  /-- `.req CMD, OPND`, an illegal command. -/
  | req (cmd opnd : Nat)
  /-- A pseudo-instruction of R71, from one integer format to another through the float hub. -/
  | pseudo (source target : Format) (operand : AsmOperand)
  deriving DecidableEq, Repr

end Sys2Proof
end

