-- ==== Sys2Proof/WellFormed.lean ====
section
/-! DEFINITION. WellFormed.lean: which command bytes are legal and which assembly lines and programs are well formed.

Every term of `Instr` is well formed as it stands: its constructor is one of the six commands and its one field has the
operand word's exact width, so no check on an instruction is left to make. The checks below are on raw requests and on
assembly text. -/

namespace Sys2Proof

/-- A legal command byte: CMD[7:3] = 00000 and CMD[2:1] is not 11 (30_encoding.md R64, R67). -/
def cmdLegal (cmd : Byte) : Bool :=
  cmd.extractLsb' 3 5 == 0#5 && cmd.extractLsb' 1 2 != 3#2

/-- A request the block gives a meaning to. -/
def Request.wf (r : Request) : Bool := cmdLegal r.cmd

/-- A decimal literal below 2^128 - 2^103 in magnitude, which is to say one whose nearest binary32 is finite (R14: no rule
leaves the range). -/
def Decimal.wf (d : Decimal) : Bool := d.digits < (2 ^ 128 - 2 ^ 103) * 10 ^ d.scale

/-- An operand for a conversion in direction `dir`: one to eight hexadecimal digits, a decimal literal only where the
operand is a float, and `@R` not on the first line (R70). -/
def AsmOperand.wf (first : Bool) (dir : Direction) : AsmOperand → Bool
  | .hex n => n < 2 ^ 32
  | .dec d => dir == .outOfFloat && d.wf
  | .atR => !first

/-- The six pairs of formats that R71 gives a pseudo-instruction. -/
def pseudoExists : Format → Format → Bool
  | .srgb8, .unorm8 => true
  | .srgb8, .unorm16 => true
  | .unorm8, .srgb8 => true
  | .unorm16, .srgb8 => true
  | .unorm8, .unorm16 => true
  | .unorm16, .unorm8 => true
  | .srgb8, .srgb8 => false
  | .unorm8, .unorm8 => false
  | .unorm16, .unorm16 => false

/-- A line that R70 and R71 allow; `.req` is the spelling of an illegal command. -/
def Line.wf (first : Bool) : Line → Bool
  | .command m o => o.wf first m.direction
  | .req cmd opnd => cmd < 2 ^ 8 && opnd < 2 ^ 32 && !cmdLegal (BitVec.ofNat 8 cmd)
  | .pseudo source target o => pseudoExists source target && o.wf first .intoFloat

/-- A program: every line well formed, the first one as a first line. -/
def programWf : List Line → Bool
  | [] => true
  | l :: ls => l.wf true && ls.all (Line.wf false)

end Sys2Proof
end

