-- ==== Sys2Proof/Decode.lean ====
section
/-! DEFINITION. Decode.lean: the decoder, total on all 2^40 requests, and the encoder (30_encoding.md R60 to R69, R72). -/

namespace Sys2Proof

/-- CMD[7:3], the field RSV (R61). -/
def rsvField (cmd : Byte) : BitVec 5 := cmd.extractLsb' 3 5

/-- CMD[2:1], the field FMT (R61). -/
def fmtField (cmd : Byte) : BitVec 2 := cmd.extractLsb' 1 2

/-- CMD[0], the field DIR (R61). -/
def dirField (cmd : Byte) : BitVec 1 := cmd.extractLsb' 0 1

/-- Why a request decodes to no instruction. -/
inductive DecodeError where
  /-- The command byte is one of the 250 illegal ones (R67). -/
  | illegalCommand (cmd : Byte)
  deriving DecidableEq, Repr

/-- The decoder (R64, R67): CMD alone decides, and the operand word is kept whole. -/
def decode (r : Request) : Except DecodeError Instr :=
  match (rsvField r.cmd).toNat, (fmtField r.cmd).toNat, (dirField r.cmd).toNat with
  | 0, 0, 0 => .ok (.srgb8ToF32 r.opnd)
  | 0, 0, 1 => .ok (.f32ToSrgb8 r.opnd)
  | 0, 1, 0 => .ok (.unorm8ToF32 r.opnd)
  | 0, 1, 1 => .ok (.f32ToUnorm8 r.opnd)
  | 0, 2, 0 => .ok (.unorm16ToF32 r.opnd)
  | 0, 2, 1 => .ok (.f32ToUnorm16 r.opnd)
  | _, _, _ => .error (.illegalCommand r.cmd)

/-- The field FMT of a format (R61, R63). -/
def Format.bits : Format → BitVec 2
  | .srgb8 => 0b00#2
  | .unorm8 => 0b01#2
  | .unorm16 => 0b10#2

/-- The field DIR of a direction (R61, R62). -/
def Direction.bits : Direction → BitVec 1
  | .intoFloat => 0#1
  | .outOfFloat => 1#1

/-- The command byte of a mnemonic: RSV, FMT, DIR from the top (R61). -/
def Mnemonic.cmd (m : Mnemonic) : Byte := 0#5 ++ m.format.bits ++ m.direction.bits

/-- An instruction's mnemonic (R64). -/
def Instr.mnemonic : Instr → Mnemonic
  | .srgb8ToF32 _ => ⟨.srgb8, .intoFloat⟩
  | .f32ToSrgb8 _ => ⟨.srgb8, .outOfFloat⟩
  | .unorm8ToF32 _ => ⟨.unorm8, .intoFloat⟩
  | .f32ToUnorm8 _ => ⟨.unorm8, .outOfFloat⟩
  | .unorm16ToF32 _ => ⟨.unorm16, .intoFloat⟩
  | .f32ToUnorm16 _ => ⟨.unorm16, .outOfFloat⟩

/-- An instruction's operand word. -/
def Instr.operand : Instr → Word
  | .srgb8ToF32 w => w
  | .f32ToSrgb8 w => w
  | .unorm8ToF32 w => w
  | .f32ToUnorm8 w => w
  | .unorm16ToF32 w => w
  | .f32ToUnorm16 w => w

/-- The encoder (R61, R64, R65). -/
def encode (i : Instr) : Request := ⟨i.mnemonic.cmd, i.operand⟩

/-- The request whose 40 bits are `w`, with CMD in bits 7..0 and OPND in bits 39..8. The opcode table numbers its bits so;
the block itself takes the two fields in parallel (R60; log entry 14). -/
def requestOfNat (w : Nat) : Request := ⟨BitVec.ofNat 8 w, BitVec.ofNat 32 (w >>> 8)⟩

/-- The request that an opcode-table word of `nbits` bits stands for: every bit from `nbits` on is 0. -/
def tableRequest (nbits w : Nat) : Request := requestOfNat (w % 2 ^ nbits)

/-- What the decoder reads from an opcode-table word. -/
def decodeTableWord (nbits w : Nat) : Option Instr :=
  match decode (tableRequest nbits w) with
  | .ok i => some i
  | .error _ => none

end Sys2Proof
end

