-- ==== Sys2Proof/Machine/Binary32.lean ====
section
/-! DEFINITION. Binary32.lean: binary32 patterns and their values, and the rounding and arithmetic primitives
(00_scope.md R12, R13, R14, R16).

A real number that a rule computes with is held as the rational number it is; a binary32 VALUE is a rational that some
pattern denotes. Powers are the one real the rules round that is not rational: rounding therefore takes its real as a
comparison with rationals (`compareTo` for a rational, Power.lean's for a power), so that one rounding serves both.
Shifts stand where R13 writes a power of two: they are what the kernel evaluates fast. -/

namespace Sys2Proof.Machine

/-- Bit 31, the sign (R13). -/
def signBit (b : Word) : Bool := b.getLsbD 31

/-- Bits 30..23, the biased exponent (R13). -/
def expField (b : Word) : Nat := (b.toNat >>> 23) % 256

/-- Bits 22..0, the fraction (R13). -/
def fracField (b : Word) : Nat := b.toNat % 8388608

/-- A NaN pattern, quiet or signalling, of either sign: exponent all ones, fraction nonzero (R13). -/
def isNaN (b : Word) : Bool := expField b == 255 && fracField b != 0

/-- A pattern that is neither a NaN nor an infinity. -/
def isFinite (b : Word) : Bool := expField b != 255

/-- The magnitude of the pattern whose bits 30..0 are `n`, in units of 2^-149: `fraction` for a subnormal,
`(2^23 + fraction) * 2^(exponent - 1)` otherwise (R13). DESIGN CHOICE (log entry 1): R13 gives no value where the exponent
field is all ones, and the same formula stands there, 2^128 for an infinity and `(2^23 + fraction) * 2^254` units for a NaN. -/
def magUnits (n : Nat) : Nat :=
  match n >>> 23 with
  | 0 => n
  | e + 1 => (8388608 + n % 8388608) <<< e

/-- The magnitude of the pattern whose bits 30..0 are `n` (R13). -/
def magVal (n : Nat) : ℚ := mkRat (magUnits n) (1 <<< 149)

/-- `val(b)` of R13. DESIGN CHOICE (log entry 1): R13 gives a value to finite patterns only; here an infinity counts as
2^128 with its sign and a NaN as the magnitude `magUnits` gives it, with its sign. `clamp01` tests for NaN first, so no
request reads the value of a NaN. -/
def val (b : Word) : ℚ :=
  if signBit b then - magVal (b.toNat % 0x80000000) else magVal (b.toNat % 0x80000000)

/-- How the rational `x` compares with `m`. -/
def compareTo (x m : ℚ) : Ordering := if x < m then .lt else if x = m then .eq else .gt

/-- The greatest number below `2 ^ i` above `acc` that `ge` accepts, for a `ge` that accepts an initial segment: one bit
at a time from the top. -/
def bitSearch (ge : Nat → Bool) : Nat → Nat → Nat
  | 0, acc => acc
  | i + 1, acc =>
    match ge (acc + (1 <<< i)) with
    | true => bitSearch ge i (acc + (1 <<< i))
    | false => bitSearch ge i acc

/-- The greatest finite magnitude pattern whose value is at most the real that `cmp` compares. -/
def floorPattern (cmp : ℚ → Ordering) : Nat :=
  bitSearch (fun n => Nat.blt n 0x7F800000 && (cmp (magVal n)).isGE) 31 0

/-- Round to nearest, ties to the even fraction (R14): the magnitude pattern nearest to the non-negative real that `cmp`
compares, decided at the midpoint of the two neighbours. From 2^128 - 2^103 on it gives 0x7F800000 (log entry 2). -/
def nearestPattern (cmp : ℚ → Ordering) : Nat :=
  let b := floorPattern cmp
  match cmp ((magVal b + magVal (b + 1)) / 2) with
  | .lt => b
  | .gt => b + 1
  | .eq => if b % 2 = 0 then b else b + 1

/-- `RNE32(x)` of R14. -/
def rne32 (x : ℚ) : ℚ :=
  if x < 0 then - magVal (nearestPattern (compareTo (-x))) else magVal (nearestPattern (compareTo x))

/-- `bits32(v)` of R13, the pattern of a binary32 value; the value 0 is written +0.0. DESIGN CHOICE (log entry 22): R13 gives
no pattern to a real that is no binary32 value, and here it is that of its RNE32. -/
def bits32 (v : ℚ) : Word :=
  if v < 0 then
    match nearestPattern (compareTo (-v)) with
    | 0 => 0
    | n + 1 => BitVec.ofNat 32 (0x80000000 + (n + 1))
  else BitVec.ofNat 32 (nearestPattern (compareTo v))

/-- `add32` of R14. -/
def add32 (a b : ℚ) : ℚ := rne32 (a + b)

/-- `sub32` of R14. -/
def sub32 (a b : ℚ) : ℚ := rne32 (a - b)

/-- `mul32` of R14. -/
def mul32 (a b : ℚ) : ℚ := rne32 (a * b)

/-- `div32` of R14. DESIGN CHOICE (log entry 22): R14 gives no quotient by 0, and here it is 0. -/
def div32 (a b : ℚ) : ℚ := rne32 (a / b)

/-- `fma32` of R14: one rounding of the exact `a * b + c`. -/
def fma32 (a b c : ℚ) : ℚ := rne32 (a * b + c)

/-- `K32` of R14, on the decimal literal's exact value. -/
def k32 (d : ℚ) : ℚ := rne32 d

/-- `trunc(x)` of R12, for `x >= 0`: the greatest integer not above `x`. DESIGN CHOICE (log entry 22): R12 gives no value below
0, and here it is 0. -/
def trunc (x : ℚ) : Nat := x.floor.toNat

/-- `clamp(lo, hi, x)` of R12 on integers. -/
def clampNat (lo hi x : Nat) : Nat := min hi (max lo x)

/-- `clamp01` of R16: NaN and everything below 0 give 0, everything above 1 gives 1, -0.0 gives 0. -/
def clamp01 (b : Word) : ℚ :=
  if isNaN b then 0
  else if val b < 0 then 0
  else if 1 < val b then 1
  else val b

end Sys2Proof.Machine
end

