-- ==== Sys2Proof/Machine/Power.lean ====
section
/-! DEFINITION. Power.lean: the correctly rounded power pow_cr (00_scope.md R14), the default of the parameter srgb_pow
(R9).

For rationals `x > 0`, `y = p / d > 0` and `m >= 0`, `x ^ y` compares with `m` as `x ^ p` compares with `m ^ d`, an exact
comparison of integers. With the codec's exponents those integers have about a hundred million bits, so the comparison is
first tried on bounds of about 192 bits kept through repeated squaring; only where the bounds do not decide is it made on
the integers themselves. `Laws/Power.lean` proves that the bounds change no answer. -/

namespace Sys2Proof.Machine

/-- The natural number bounded lies between `lo * 2 ^ e` and `hi * 2 ^ e`. -/
structure Bounds where
  lo : Nat
  hi : Nat
  e  : Nat
  deriving DecidableEq, Repr

/-- `k n`, with `n` evaluated first. -/
def evalNat {α : Type} (n : Nat) (k : Nat → α) : α :=
  match n with
  | 0 => k 0
  | m + 1 => k (Nat.succ m)

/-- `k v`, with the three numbers of `v` evaluated first. -/
def evalBounds {α : Type} (v : Bounds) (k : Bounds → α) : α :=
  match v with
  | ⟨lo, hi, e⟩ => evalNat lo fun lo => evalNat hi fun hi => evalNat e fun e => k ⟨lo, hi, e⟩

/-- Bounds cut back to 192 bits, 64 bits at a time, `lo` rounded down and `hi` up. -/
def trimBounds : Nat → Bounds → Bounds
  | 0, v => v
  | f + 1, v =>
    match Nat.blt v.hi (1 <<< 192) with
    | true => v
    | false =>
      evalBounds ⟨v.lo >>> 64, (v.hi + 0xFFFFFFFFFFFFFFFF) >>> 64, v.e + 64⟩ (trimBounds f)

/-- Bounds of a product. -/
def mulBounds (a b : Bounds) : Bounds :=
  evalBounds ⟨a.lo * b.lo, a.hi * b.hi, a.e + b.e⟩ (trimBounds 4)

/-- Bounds of `n ^ p` by repeated squaring, with `fuel` at least the length of `p` in bits. -/
def powBoundsGo (n : Nat) : Nat → Nat → Bounds
  | 0, _ => ⟨1, 1, 0⟩
  | fuel + 1, p =>
    match p with
    | 0 => ⟨1, 1, 0⟩
    | q + 1 =>
      evalBounds (powBoundsGo n fuel (Nat.succ q / 2)) fun h =>
      match Nat.succ q % 2 with
      | 0 => mulBounds h h
      | _ => mulBounds (mulBounds h h) ⟨n, n, 0⟩

/-- Bounds of `n ^ p`. -/
def powBounds (n p : Nat) : Bounds := powBoundsGo n p p

/-- `a * 2 ^ i < b * 2 ^ j`; far-apart exponents are settled without shifting. -/
def scaledLt (a i b j : Nat) : Bool :=
  match Nat.ble i j with
  | true => (Nat.ble (i + 1024) j && Nat.blt a (1 <<< 1024) && Nat.blt 0 b) || Nat.blt a (b <<< (j - i))
  | false => !(Nat.ble (j + 1024) i && Nat.blt b (1 <<< 1024) && Nat.blt 0 a) && Nat.blt (a <<< (i - j)) b

/-- How a number bounded by `a` compares with one bounded by `b`, where the bounds decide it. -/
def boundsOrder (a b : Bounds) : Option Ordering :=
  match scaledLt a.hi a.e b.lo b.e with
  | true => some .lt
  | false =>
    match scaledLt b.hi b.e a.lo a.e with
    | true => some .gt
    | false => none

/-- How `x ^ y` compares with `m >= 0`: `num x ^ p * den m ^ d` against `num m ^ d * den x ^ p`, with `y = p / d`, on
the bounds `xn` of `num x ^ p` and `xd` of `den x ^ p`, else on the exact powers. -/
def powCompare (x y : ℚ) (xn xd : Bounds) (m : ℚ) : Ordering :=
  match boundsOrder (mulBounds xn (powBounds m.den y.den)) (mulBounds (powBounds m.num.toNat y.den) xd) with
  | some o => o
  | none => compareTo (x ^ y.num.toNat) (m ^ y.den)

/-- `pow_cr(x, y)` of R14, for `x > 0` and `y > 0` (elsewhere log entry 3): the binary32 value nearest to `x ^ y`. -/
def powCr (x y : ℚ) : ℚ :=
  evalBounds (powBounds x.num.toNat y.num.toNat) fun xn =>
  evalBounds (powBounds x.den y.num.toNat) fun xd =>
  magVal (nearestPattern (powCompare x y xn xd))

end Sys2Proof.Machine
end

