-- ==== Sys2Proof/Config.lean ====
section
/-! DEFINITION. Config.lean: the named parameters of the block (00_scope.md R9). -/

namespace Sys2Proof

/-- The byte order of a 16- or 32-bit channel in a software buffer (R9, R43). -/
inductive ByteOrder where
  | little
  | big
  deriving DecidableEq, Repr, Inhabited

/-- `srgb_pow` at its default `pow_cr` (R9), which 40_srgb_codec.md R97 makes normative. The codec's functions take the
power as an argument; the machine passes this one. Log entry 4. -/
def Config.srgbPow : ℚ → ℚ → ℚ := Sys2Proof.Machine.powCr

/-- `latency` (R9, R166): unconstrained, and read by nothing. Log entry 5. -/
opaque Config.latency : Nat

/-- `buffer_byte_order` (R9, R43): OPEN, outside the block, read only by the host's buffer layout. Log entry 6. -/
opaque Config.bufferByteOrder : ByteOrder

end Sys2Proof
end

