-- ==== Sys2Proof/Machine/State.lean ====
section
/-! DEFINITION. State.lean: the state of the block and of a run, and the reasons a step can stop (10_state.md R21 to R34). -/

namespace Sys2Proof.Machine

open Sys2Proof

/-- The faults of 60_exceptions.md R143. An entry is RECORDED in the fault mark by `raiseIllegalCommand`; the hardware
carries on (R141), so no step ENDS with one. Safe: a claim can always ask that the mark be empty. -/
inductive Fault where
  /-- `Fault(IllegalCommand, k, cmd)`: request `k` carried the illegal command byte `cmd`. Recorded by
  `raiseIllegalCommand`, on the 250 illegal bytes (R67). Safe. -/
  | illegalCommand (k : Nat) (cmd : Byte)
  deriving DecidableEq, Repr

/-- The reasons for which a step gives an instruction no meaning. -/
inductive Refusal where
  /-- An instruction without a meaning in the model, raised by `exec`'s arm for it. Safe. All six instructions have one, so
  nothing raises this. -/
  | notModelled (mnemonic : String)
  deriving DecidableEq, Repr

/-- The response format RSP (30_encoding.md R60). -/
structure Response where
  result : Word
  ill    : Bool
  deriving DecidableEq, Repr

/-- What a host read returned (R27, R34). -/
inductive HostRead where
  | result (w : Word)
  | status (b : Byte)
  deriving DecidableEq, Repr

/-- The block's registers and lines, then what a model keeps beside them of the run and of the host. -/
structure State where
  /-- RESULT, 32 bits (R21, R25). -/
  result    : Word
  /-- STATUS, 8 bits: bit 0 is ILL, bits 7..1 are hardwired 0 (R21, R24, R26). -/
  status    : Byte
  /-- The request accepted and not yet answered (R30, R31). -/
  inFlight  : Option Request
  /-- The reset input is asserted (70_reset_and_hazards.md R160). -/
  inReset   : Bool
  /-- The fault mark, oldest entry first (60_exceptions.md R143). -/
  faultMark : List Fault
  /-- The index `k` of the next request, held by the host (R23). -/
  index     : Nat
  /-- The responses of the run, oldest first (70_reset_and_hazards.md R168). -/
  responses : List Response
  /-- The command stream: the host's moves still to come, the next one first (00_scope.md R18, R34). -/
  pending   : List HostMove
  /-- What the host's register reads returned, oldest first (R27). -/
  reads     : List HostRead
  deriving DecidableEq, Repr

/-- The machine right after reset, at launch: RESULT and STATUS 0, nothing in flight, an empty fault mark (R31), and a run
with no request yet (R23, R168). No stream is placed (log entry 8). -/
def State.reset : State where
  result := 0
  status := 0
  inFlight := none
  inReset := false
  faultMark := []
  index := 0
  responses := []
  pending := []
  reads := []

end Sys2Proof.Machine
end

