-- ==== Sys2Proof/Machine/Flags.lean ====
section
/-! DEFINITION. Flags.lean: the STATUS register and its one flag ILL (10_state.md R24, R26). -/

namespace Sys2Proof.Machine

open Sys2Proof

/-- STATUS.ILL, bit 0 of STATUS (R26). -/
def illFlag (status : Byte) : Bool := status.getLsbD 0

/-- STATUS with ILL written and bits 7..1 left alone (R24; log entry 13). -/
def writeIll (status : Byte) (ill : Bool) : Byte := (status &&& 0xFE#8) ||| (if ill then 1#8 else 0#8)

/-- What a read of STATUS returns: bits 7..1 are hardwired 0 (R26). -/
def statusAsRead (status : Byte) : Byte := status &&& 0x01#8

end Sys2Proof.Machine
end

