-- ==== Sys2Proof/Machine/Operands.lean ====
section
/-! DEFINITION. Operands.lean: operand and result assembly (30_encoding.md R65, R66), and the operand the host puts into a
request (R70). -/

namespace Sys2Proof.Machine

open Sys2Proof

/-- `u = OPND[7:0]`, unsigned; the bits above are ignored (R65). -/
def operandU8 (opnd : Word) : Nat := (opnd.extractLsb' 0 8).toNat

/-- `v = OPND[15:0]`, unsigned; the bits above are ignored (R65). -/
def operandU16 (opnd : Word) : Nat := (opnd.extractLsb' 0 16).toNat

/-- `zext_32(n)` for an 8-bit result (R66). -/
def resultU8 (n : Nat) : Word := (BitVec.ofNat 8 n).zeroExtend 32

/-- `zext_32(n)` for a 16-bit result (R66). -/
def resultU16 (n : Nat) : Word := (BitVec.ofNat 16 n).zeroExtend 32

/-- The OPND of a request: the host's word, or for `@R` the RESULT it reads just before it issues the request (R70, R164;
log entry 11). -/
def operandWord (s : State) : HostOperand → Word
  | .word w => w
  | .lastResult => s.result

/-- What the host has read in order to fill in the operand: `@R` is a read of RESULT (R70, R164). -/
def operandReads (s : State) : HostOperand → List HostRead
  | .word _ => []
  | .lastResult => [.result s.result]

end Sys2Proof.Machine
end

