-- ==== Sys2Proof/Machine/Ops.lean ====
section
/-! DEFINITION. Ops.lean: the shared operations on the state: writing a response, the IllegalCommand response, reset, and
the host's reads. -/

namespace Sys2Proof.Machine

open Sys2Proof

/-- One response: RESULT and STATUS.ILL are written together (20_memory.md R45), the response joins the run's list
(70_reset_and_hazards.md R168), and the host's index advances by 1 (10_state.md R23). -/
def writeResponse (s : State) (result : Word) (ill : Bool) : State :=
  { s with
    result := result
    status := writeIll s.status ill
    responses := s.responses ++ [⟨result, ill⟩]
    index := s.index + 1 }

/-- The response to a legal request: RESULT is the command's result word and ILL is 0 (R24, R25). -/
def answer (s : State) (result : Word) : State := writeResponse s result false

/-- Taking the block's one exception: RESULT is 0 and ILL is 1 (60_exceptions.md R141), and the fault mark records request
`k` and its command byte (R143). Nothing is saved and control goes nowhere (R146); there is no return (R147). -/
def raiseIllegalCommand (cmd : Byte) (s : State) : State :=
  { writeResponse s 0 true with faultMark := s.faultMark ++ [.illegalCommand s.index cmd] }

/-- The reset input asserted: RESULT and STATUS take their reset values and a request in flight is discarded without a
response (70_reset_and_hazards.md R160). The fault mark keeps its entries (R31), and all that the host holds stays (DEDUCED,
log entry 9). A discarded request appends no entry, whether or not its command is illegal (DEDUCED, log entry 19). -/
def assertReset (s : State) : State :=
  { s with result := 0, status := 0, inFlight := none, inReset := true }

/-- The reset input released: the block accepts requests again (R160). -/
def releaseReset (s : State) : State := { s with inReset := false }

/-- A host read of RESULT: it changes no register (10_state.md R27). -/
def readResult (s : State) : State := { s with reads := s.reads ++ [.result s.result] }

/-- A host read of STATUS: it changes no register (R27). -/
def readStatus (s : State) : State := { s with reads := s.reads ++ [.status (statusAsRead s.status)] }

/-- The host fills in the operand of a request: the reads that this takes are recorded (30_encoding.md R70). -/
def fillOperand (s : State) (o : HostOperand) : State := { s with reads := s.reads ++ operandReads s o }

/-- The state in which the very next step runs the request `r`: reset released, nothing in flight, and `r` first in the
stream. -/
def placeRequest (s : State) (r : Request) : State :=
  { s with inReset := false, inFlight := none, pending := .request r.cmd (.word r.opnd) :: s.pending }

end Sys2Proof.Machine
end

