-- ==== Sys2Proof/Machine/Srgb.lean ====
section
/-! DEFINITION. Srgb.lean: the sRGB transfer codec, SRGB8_TO_F32 and F32_TO_SRGB8 (40_srgb_codec.md). -/

namespace Sys2Proof.Machine

open Sys2Proof

/-- K32("0.04045") (R81). -/
def tDec : ℚ := val 0x3D25AEE6#32

/-- K32("12.92") (R81). -/
def sLin : ℚ := val 0x414EB852#32

/-- K32("0.055") (R81). -/
def aOff : ℚ := val 0x3D6147AE#32

/-- K32("1.055") (R81). -/
def aScl : ℚ := val 0x3F870A3D#32

/-- K32("2.4") (R81). -/
def gExp : ℚ := val 0x4019999A#32

/-- K32("0.0031308") (R81). -/
def tEnc : ℚ := val 0x3B4D2E1C#32

/-- RNE32(5/12) (R81). -/
def gInv : ℚ := val 0x3ED55555#32

/-- The power branch of decode, `((c + 0.055) / 1.055) ^ 2.4`, a rounding after each operation (R86). -/
def decodePower (pow : ℚ → ℚ → ℚ) (c : ℚ) : ℚ :=
  let s := add32 c aOff
  let t := div32 s aScl
  pow t gExp

/-- Decode of the channel `u` (R83 to R86): the linear branch when `c < T_DEC`, else the power branch. -/
def decodeChannel (pow : ℚ → ℚ → ℚ) (u : Nat) : ℚ :=
  let c := div32 u 255
  if c < tDec then div32 c sLin else decodePower pow c

/-- The result word of SRGB8_TO_F32 (R87). -/
def srgb8ToF32 (pow : ℚ → ℚ → ℚ) (opnd : Word) : Word := bits32 (decodeChannel pow (operandU8 opnd))

/-- The power branch of encode, `1.055 * f^(1/2.4) - 0.055`, a rounding after each operation and no contraction (R92). -/
def encodePower (pow : ℚ → ℚ → ℚ) (f : ℚ) : ℚ :=
  let p := pow f gInv
  let m := mul32 aScl p
  sub32 m aOff

/-- The compressed value of `f` before the quantiser (R90 to R92): the linear branch when `f <= T_ENC`. -/
def compress (pow : ℚ → ℚ → ℚ) (f : ℚ) : ℚ := if f ≤ tEnc then mul32 f sLin else encodePower pow f

/-- The quantiser Q8 (R93): one rounding of `c * 255 + 0.5`, truncated and saturated. -/
def q8 (c : ℚ) : Nat := clampNat 0 255 (trunc (fma32 c 255 (1 / 2)))

/-- The result word of F32_TO_SRGB8 (R94). -/
def f32ToSrgb8 (pow : ℚ → ℚ → ℚ) (opnd : Word) : Word := resultU8 (q8 (compress pow (clamp01 opnd)))

/-- SRGB8_TO_F32 (R87). -/
def execSrgb8ToF32 (opnd : Word) (s : State) : Host.Outcome State Fault Refusal :=
  .next (answer s (srgb8ToF32 Config.srgbPow opnd))

/-- F32_TO_SRGB8 (R94). -/
def execF32ToSrgb8 (opnd : Word) (s : State) : Host.Outcome State Fault Refusal :=
  .next (answer s (f32ToSrgb8 Config.srgbPow opnd))

end Sys2Proof.Machine
end

