-- ==== Sys2Proof/Machine/Unorm.lean ====
section
/-! DEFINITION. Unorm.lean: the unorm affine rescaler (41_unorm_rescale.md). -/

namespace Sys2Proof.Machine

open Sys2Proof

/-- The result word of UNORM8_TO_F32 (R111). -/
def unorm8ToF32 (opnd : Word) : Word := bits32 (div32 (operandU8 opnd) 255)

/-- The result word of F32_TO_UNORM8 (R112). -/
def f32ToUnorm8 (opnd : Word) : Word := resultU8 (q8 (clamp01 opnd))

/-- The result word of UNORM16_TO_F32 (R113). -/
def unorm16ToF32 (opnd : Word) : Word := bits32 (div32 (operandU16 opnd) 65535)

/-- The result word of F32_TO_UNORM16 (R114): the product is rounded, then truncated (R115). -/
def f32ToUnorm16 (opnd : Word) : Word :=
  resultU16 (clampNat 0 65535 (trunc (mul32 (clamp01 opnd) 65535)))

/-- UNORM8_TO_F32 (R111). -/
def execUnorm8ToF32 (opnd : Word) (s : State) : Host.Outcome State Fault Refusal :=
  .next (answer s (unorm8ToF32 opnd))

/-- F32_TO_UNORM8 (R112). -/
def execF32ToUnorm8 (opnd : Word) (s : State) : Host.Outcome State Fault Refusal :=
  .next (answer s (f32ToUnorm8 opnd))

/-- UNORM16_TO_F32 (R113). -/
def execUnorm16ToF32 (opnd : Word) (s : State) : Host.Outcome State Fault Refusal :=
  .next (answer s (unorm16ToF32 opnd))

/-- F32_TO_UNORM16 (R114). -/
def execF32ToUnorm16 (opnd : Word) (s : State) : Host.Outcome State Fault Refusal :=
  .next (answer s (f32ToUnorm16 opnd))

end Sys2Proof.Machine
end

