-- ==== Sys2Proof/Machine/Dispatch.lean ====
section
/-! DEFINITION. Dispatch.lean: each of the six commands of 30_encoding.md R64 and its meaning. -/

namespace Sys2Proof.Machine

open Sys2Proof

def exec (i : Instr) (s : State) : Host.Outcome State Fault Refusal :=
  match i with
  | .srgb8ToF32 opnd => Sys2Proof.Machine.execSrgb8ToF32 opnd s
  | .f32ToSrgb8 opnd => Sys2Proof.Machine.execF32ToSrgb8 opnd s
  | .unorm8ToF32 opnd => Sys2Proof.Machine.execUnorm8ToF32 opnd s
  | .f32ToUnorm8 opnd => Sys2Proof.Machine.execF32ToUnorm8 opnd s
  | .unorm16ToF32 opnd => Sys2Proof.Machine.execUnorm16ToF32 opnd s
  | .f32ToUnorm16 opnd => Sys2Proof.Machine.execF32ToUnorm16 opnd s

end Sys2Proof.Machine
end

