-- ==== Sys2Proof/Machine/Moves.lean ====
section
/-! DEFINITION. Moves.lean: performing a request, and one move of the host (10_state.md R20, R34; 30_encoding.md R72). -/

namespace Sys2Proof.Machine

open Sys2Proof

/-- One request to one response: a legal request runs its command, an illegal one takes the exception (R72, R140). -/
def perform (r : Request) (s : State) : Host.Outcome State Fault Refusal :=
  match decode r with
  | .ok i => exec i s
  | .error (.illegalCommand cmd) => .next (raiseIllegalCommand cmd s)

/-- The request the host issues with operand `o`, as the block receives it. -/
def issued (s : State) (cmd : Byte) (o : HostOperand) : Request := ⟨cmd, operandWord s o⟩

/-- A host move met with no request in flight. A request presented during reset gets no response (60_exceptions.md R145,
70_reset_and_hazards.md R160). Such a request appends no fault mark entry, whether or not its command is illegal (DEDUCED, log
entry 19), and no host read is recorded for its operand `@R` (DESIGN CHOICE, log entry 21). The move `launch` leaves its
request in flight (DESIGN CHOICE, log entry 10). -/
def takeMove (m : HostMove) (s : State) : Host.Outcome State Fault Refusal :=
  match m with
  | .request cmd o =>
    if s.inReset then .next s else perform (issued s cmd o) (fillOperand s o)
  | .launch cmd o =>
    if s.inReset then .next s else .next { fillOperand s o with inFlight := some (issued s cmd o) }
  | .readResult => .next (readResult s)
  | .readStatus => .next (readStatus s)
  | .assertReset => .next (assertReset s)
  | .releaseReset => .next (releaseReset s)

/-- A request in flight completes: its response is written. -/
def complete (r : Request) (s : State) : Host.Outcome State Fault Refusal := perform r { s with inFlight := none }

/-- One step. A request in flight can be read around and can be discarded by reset (R30, R34, R160); in every other case it
completes before the host's next move is looked at (20_memory.md R48). With nothing in flight the next move is taken, and
with none left the block idles and holds its registers (R25, R168; log entries 7 and 8). -/
def advance (s : State) : Host.Outcome State Fault Refusal :=
  match s.inFlight, s.pending with
  | some _, .assertReset :: rest => .next (assertReset { s with pending := rest })
  | some _, .readResult :: rest => .next (readResult { s with pending := rest })
  | some _, .readStatus :: rest => .next (readStatus { s with pending := rest })
  | some r, _ => complete r s
  | none, m :: rest => takeMove m { s with pending := rest }
  | none, [] => .next s

end Sys2Proof.Machine
end

