-- ==== Sys2Proof/Machine/Step.lean ====
section
/-! DEFINITION. Step.lean: one step of the machine, and a request placed where the next step takes it. -/

namespace Sys2Proof.Machine

open Sys2Proof

/-- One step (Moves.lean, `advance`). -/
def step (s : State) : Host.Outcome State Fault Refusal := Sys2Proof.Machine.advance s

/-- The state with the request of an opcode-table word first in the stream, so that the next step runs it (log entry 15). -/
def State.withFetchWord (s : State) (nbits w : Nat) : State := placeRequest s (tableRequest nbits w)

end Sys2Proof.Machine
end

