-- ==== Sys2Proof/Machine/Assembly.lean ====
section
/-! DEFINITION. Assembly.lean: the host's side of a run: assembly lines and pseudo-instructions as host moves (30_encoding.md
R70, R71), a pixel as requests and as buffer bytes (20_memory.md R43). -/

namespace Sys2Proof.Machine

open Sys2Proof

/-- The exact value of a decimal literal (R70). -/
def decimalValue (d : Decimal) : ℚ :=
  if d.negative then - mkRat d.digits (10 ^ d.scale) else mkRat d.digits (10 ^ d.scale)

/-- The OPND that an assembly operand stands for: hexadecimal digits zero-extended, a decimal literal as
`bits32(K32(literal))`, `@R` as the RESULT read back (R70). -/
def asmOperand : AsmOperand → HostOperand
  | .hex n => .word (BitVec.ofNat 32 n)
  | .dec d => .word (bits32 (k32 (decimalValue d)))
  | .atR => .lastResult

/-- The requests of one line (R70); a pseudo-instruction is two, through the float hub (R71). -/
def assembleLine : Line → List HostMove
  | .command m o => [.request m.cmd (asmOperand o)]
  | .req cmd opnd => [.request (BitVec.ofNat 8 cmd) (.word (BitVec.ofNat 32 opnd))]
  | .pseudo source target o =>
    [.request (Mnemonic.mk source .intoFloat).cmd (asmOperand o),
     .request (Mnemonic.mk target .outOfFloat).cmd .lastResult]

/-- A program's command stream, for a well-formed program (R70). -/
def assemble (p : List Line) : Option (List HostMove) :=
  if programWf p then some (p.flatMap assembleLine) else none

/-- A run of a command stream starts right after reset (70_reset_and_hazards.md R168). -/
def startRun (stream : List HostMove) : State := { State.reset with pending := stream }

/-- The requests that convert a pixel's channels with the command `m`, in the order R, G, B, (A) of the list (R43). -/
def pixelMoves (m : Mnemonic) (channels : List Word) : List HostMove :=
  channels.map fun w => .request m.cmd (.word w)

/-- A channel value in a software buffer, at its exact width (R7, R43). -/
inductive Channel where
  | bits8 (b : Byte)
  | bits16 (h : BitVec 16)
  | bits32 (w : Word)
  deriving DecidableEq, Repr

/-- A channel's bytes, least significant first. -/
def channelBytesLittle : Channel → List Byte
  | .bits8 b => [b]
  | .bits16 h => [h.extractLsb' 0 8, h.extractLsb' 8 8]
  | .bits32 w => [w.extractLsb' 0 8, w.extractLsb' 8 8, w.extractLsb' 16 8, w.extractLsb' 24 8]

/-- A channel's bytes in a buffer of the given byte order (R9, R43). -/
def channelBytes (order : ByteOrder) (c : Channel) : List Byte :=
  match order with
  | .little => channelBytesLittle c
  | .big => (channelBytesLittle c).reverse

/-- A pixel's bytes: its channels in order, with no padding between them (R43). -/
def pixelBytes (order : ByteOrder) (channels : List Channel) : List Byte := channels.flatMap (channelBytes order)

/-- A pixel's bytes in the host's own buffers, whose byte order is open (R9). -/
def hostPixelBytes (channels : List Channel) : List Byte := pixelBytes Config.bufferByteOrder channels

end Sys2Proof.Machine
end

