-- ==== Sys2Proof/Machine/Respond.lean ====
section
/-! DEFINITION. Respond.lean: the total function of one request that 30_encoding.md R72 writes out, apart from the state.
The machine reaches it through the decoder and `exec`; claims compare the two. -/

namespace Sys2Proof.Machine

open Sys2Proof

/-- `respond(cmd, opnd)` of R72, for a given power primitive (00_scope.md R9). -/
def respondWith (pow : ℚ → ℚ → ℚ) (cmd : Byte) (opnd : Word) : Response :=
  if rsvField cmd ≠ 0b00000#5 ∨ fmtField cmd = 0b11#2 then ⟨0x00000000#32, true⟩
  else
    match (cmd.extractLsb' 0 3).toNat with
    | 0b000 => ⟨srgb8ToF32 pow opnd, false⟩
    | 0b001 => ⟨f32ToSrgb8 pow opnd, false⟩
    | 0b010 => ⟨unorm8ToF32 opnd, false⟩
    | 0b011 => ⟨f32ToUnorm8 opnd, false⟩
    | 0b100 => ⟨unorm16ToF32 opnd, false⟩
    | 0b101 => ⟨f32ToUnorm16 opnd, false⟩
    | _ => ⟨0x00000000#32, true⟩

/-- `respond` of PFCB-1, with the default power (R9, R72). -/
def respond (r : Request) : Response := respondWith Config.srgbPow r.cmd r.opnd

end Sys2Proof.Machine
end

