-- ==== Sys2Proof/Safety.lean ====
section
/-! DEFINITION. Safety.lean: the terms claims are made in: what correctly rounded means, the observation and the end of a
run, and the invariant of the machine. -/

namespace Sys2Proof

open Sys2Proof.Machine

/-- `b` is the binary32 pattern of RNE32(x) (00_scope.md R13, R14): it is finite, no finite pattern's value is nearer to
the real `x`, at a tie with another value its fraction LSB is 0, and zero is written +0.0. It names no operation of the
model's arithmetic but `val`. -/
def IsRNE32 (x : ℝ) (b : Word) : Prop :=
  isFinite b = true ∧ b ≠ 0x80000000#32 ∧
  ∀ w : Word, isFinite w = true →
    |((val b : ℚ) : ℝ) - x| ≤ |((val w : ℚ) : ℝ) - x| ∧
    (|((val b : ℚ) : ℝ) - x| = |((val w : ℚ) : ℝ) - x| → val w ≠ val b → b.getLsbD 0 = false)

/-- `n` steps of the machine. -/
def run (n : Nat) (s : State) : Host.Outcome State Fault Refusal := Host.Core.run Sys2Proof.core n s

/-- The end of a run: no host move is left and nothing is in flight. On a stream of requests alone that is the response to
request N-1 (70_reset_and_hazards.md R168). DESIGN CHOICE (log entry 20): R168 does not say when a run ends whose last request
reset discards, or in which reads or resets follow the last response; here those moves belong to the run. -/
def Finished (s : State) : Prop := s.pending = [] ∧ s.inFlight = none

/-- No fault has been recorded (60_exceptions.md R143). -/
def FaultFree (s : State) : Prop := s.faultMark = []

/-- The observation of a run (R168). -/
structure Observation where
  responses : List Response
  result    : Word
  status    : Byte
  faultMark : List Fault
  deriving DecidableEq, Repr

/-- What a run shows at its end (R168): STATUS as the host reads it. After a stream that ends in a reset these are the reset
values, and not response N-1 (log entry 20). -/
def observe (s : State) : Observation := ⟨s.responses, s.result, statusAsRead s.status, s.faultMark⟩

/-- The block accepts the host's next request: reset is released and nothing is in flight. -/
def Ready (s : State) : Prop := s.inReset = false ∧ s.inFlight = none

/-- A host move that reads a register. -/
def isRead : HostMove → Bool
  | .readResult => true
  | .readStatus => true
  | .request _ _ => false
  | .launch _ _ => false
  | .assertReset => false
  | .releaseReset => false

/-- A host move that presents a request. -/
def isPresented : HostMove → Bool
  | .request _ _ => true
  | .launch _ _ => true
  | .readResult => false
  | .readStatus => false
  | .assertReset => false
  | .releaseReset => false

/-- A host read that returned zero. -/
def isZeroRead : HostRead → Bool
  | .result w => w == 0#32
  | .status b => b == 0#8

/-- The fault mark that a stream of requests leaves: `Fault(IllegalCommand, k, cmd)` for each illegal request, with its
index, in request order (R143). -/
def expectedMark (rs : List Request) : List Fault :=
  rs.zipIdx.filterMap fun p => if cmdLegal p.1.cmd then none else some (.illegalCommand p.2 p.1.cmd)

/-- The moves that present a list of requests. -/
def streamOf (rs : List Request) : List HostMove := rs.map fun r => .request r.cmd (.word r.opnd)

/-- The request index of a fault mark entry. -/
def faultIndex : Fault → Nat
  | .illegalCommand k _ => k

/-- The indices of the responses whose ILL is 1. -/
def illIndices (rs : List Response) : List Nat := (rs.zipIdx.filter fun p => p.1.ill).map fun p => p.2

/-- The invariant of the machine. -/
structure Inv (s : State) : Prop where
  /-- STATUS[7:1] hold 0 (10_state.md R26). -/
  reserved_zero : s.status &&& 0xFE#8 = 0#8
  /-- The index counts the responses (R23). -/
  index_counts : s.index = s.responses.length
  /-- RESULT and ILL are the last response's, or the reset values (R25, R31; 20_memory.md R48). -/
  holds_last : (s.result = 0#32 ∧ illFlag s.status = false) ∨
    s.responses.getLast? = some ⟨s.result, illFlag s.status⟩
  /-- A response with ILL = 1 has result 0 (60_exceptions.md R141). -/
  ill_result_zero : ∀ r ∈ s.responses, r.ill = true → r.result = 0#32
  /-- The fault mark has one entry for each response with ILL = 1, with its index, in order (R143). -/
  mark_matches : s.faultMark.map faultIndex = illIndices s.responses
  /-- Every recorded command byte is illegal (R143). -/
  mark_illegal : ∀ k cmd, Fault.illegalCommand k cmd ∈ s.faultMark → cmdLegal cmd = false
  /-- While reset is asserted the registers hold their reset values and nothing is in flight
  (70_reset_and_hazards.md R160). -/
  reset_holds : s.inReset = true → s.result = 0#32 ∧ s.status = 0#8 ∧ s.inFlight = none

end Sys2Proof
end

