-- ==== Sys2Proof/Certificates/Slice0/Obligations.lean ====
section
/-! DEFINITION. Obligations.lean: the statements about the PFCB, for the provers. Each cites the rules of spec/ it rests on;
`IsRNE32 x b` (Safety.lean) says that `b` is the binary32 pattern of RNE32(x) without naming the model's arithmetic. -/

open Sys2Proof Sys2Proof.Machine

/-! ## Reset, registers, reads -/

/-- The reset value of every piece of state, at launch and whenever reset is asserted; the fault mark is empty at launch and
reset removes no entry (R31). That reset also adds none, with an illegal request in flight, is the model's choice (DEDUCED,
log entry 19), for which no rule is cited. -/
def Obligations.ResetLeavesTheListedValues : Prop :=
  (State.reset.result = 0x00000000#32 ∧ illFlag State.reset.status = false ∧ State.reset.status &&& 0xFE#8 = 0#8 ∧
    State.reset.inFlight = none ∧ State.reset.faultMark = []) ∧
  ∀ (s : State) (rest : List HostMove), s.pending = .assertReset :: rest →
    ∃ t, step s = .next t ∧ t.result = 0x00000000#32 ∧ illFlag t.status = false ∧ t.status &&& 0xFE#8 = 0#8 ∧
      t.inFlight = none ∧ t.faultMark = s.faultMark ∧ t.pending = rest

/-- R32: as long as no request has completed since reset, RESULT holds 0, every read returns zero, and nothing stops; from
the launch and from a reset asserted in any state. -/
def Obligations.ReadsBeforeAnyResponseReturnZero : Prop :=
  (∀ (ms : List HostMove) (n : Nat), ∃ t, run n (startRun ms) = .next t ∧
    (t.responses = [] → t.result = 0#32 ∧ statusAsRead t.status = 0#8 ∧ t.reads.all isZeroRead = true)) ∧
  ∀ (s : State) (rest : List HostMove) (n : Nat), s.pending = .assertReset :: rest →
    ∃ t, run (n + 1) s = .next t ∧
      (t.responses.length = s.responses.length → t.result = 0#32 ∧ statusAsRead t.status = 0#8 ∧
        ∃ more, t.reads = s.reads ++ more ∧ more.all isZeroRead = true)

/-- R27: a host read returns the register and changes no state of the block, with or without a request in flight; nothing
but a response or reset changes RESULT or STATUS. -/
def Obligations.ReadsHaveNoSideEffect : Prop :=
  (∀ (s : State) (rest : List HostMove), s.pending = .readResult :: rest →
    step s = .next { s with pending := rest, reads := s.reads ++ [.result s.result] }) ∧
  (∀ (s : State) (rest : List HostMove), s.pending = .readStatus :: rest →
    step s = .next { s with pending := rest, reads := s.reads ++ [.status (s.status &&& 0x01#8)] }) ∧
  (∀ s t : State, step s = .next t → (t.result ≠ s.result ∨ t.status ≠ s.status) →
    t.responses.length = s.responses.length + 1 ∨ ∃ rest, s.pending = .assertReset :: rest)

/-- R25: between two responses RESULT holds its value. With no move left the machine keeps its whole state (the idle step
is the model's choice, log entry 7). -/
def Obligations.RegistersHoldWhenTheStreamIsDone : Prop :=
  ∀ (s : State) (n : Nat), s.inFlight = none → s.pending = [] → run n s = .next s

/-- Reset may be asserted at any time, also with a request in flight; that request and every request presented while reset
is asserted get no response; after the release requests are accepted again; the fault mark stays (R160, R145). The
model's choices, for which no rule is cited: a discarded request leaves the index as it is (DEDUCED, log entry 9) and
appends no fault mark entry (DEDUCED, log entry 19); reset leaves the reads already recorded as they are, among them that
for the `@R` of the request in flight (DEDUCED, log entry 9); and a request presented while reset is asserted records no
read for its `@R` (DESIGN CHOICE, log entry 21). -/
def Obligations.ResetDiscardsRequests : Prop :=
  (∀ (s : State) (rest : List HostMove), s.pending = .assertReset :: rest →
    ∃ t, step s = .next t ∧ t.inReset = true ∧ t.inFlight = none ∧ t.result = 0#32 ∧ t.status = 0#8 ∧
      t.responses = s.responses ∧ t.faultMark = s.faultMark ∧ t.index = s.index ∧ t.reads = s.reads ∧
      t.pending = rest) ∧
  (∀ (s : State) (cmd : Byte) (o : HostOperand) (rest : List HostMove), s.inReset = true → s.inFlight = none →
    (s.pending = .request cmd o :: rest ∨ s.pending = .launch cmd o :: rest) →
    step s = .next { s with pending := rest }) ∧
  (∀ (s : State) (rest : List HostMove), s.inFlight = none → s.pending = .releaseReset :: rest →
    ∃ t, step s = .next t ∧ Ready t ∧ t.result = s.result ∧ t.status = s.status ∧ t.responses = s.responses ∧
      t.faultMark = s.faultMark ∧ t.pending = rest)

/-! ## Encoding and decoding -/

/-- R64: the six commands and their bytes; exactly the bytes with RSV = 00000 and FMT not 11 belong to a command. -/
def Obligations.OpcodeMapOfSixCommands : Prop :=
  (∀ w : Word,
    encode (.srgb8ToF32 w) = ⟨0x00#8, w⟩ ∧ encode (.f32ToSrgb8 w) = ⟨0x01#8, w⟩ ∧
    encode (.unorm8ToF32 w) = ⟨0x02#8, w⟩ ∧ encode (.f32ToUnorm8 w) = ⟨0x03#8, w⟩ ∧
    encode (.unorm16ToF32 w) = ⟨0x04#8, w⟩ ∧ encode (.f32ToUnorm16 w) = ⟨0x05#8, w⟩) ∧
  ∀ (cmd : Byte) (w : Word), (∃ i, decode ⟨cmd, w⟩ = .ok i) ↔
    cmd.extractLsb' 3 5 = 0b00000#5 ∧ cmd.extractLsb' 1 2 ≠ 0b11#2

/-- Requests written out bit by bit from R61 and R64, one for each command and one for each way to be illegal. -/
def Obligations.WrittenRequestsDecode : Prop :=
  decode ⟨0b00000000#8, 0x00000080#32⟩ = .ok (.srgb8ToF32 0x00000080#32) ∧
  decode ⟨0b00000001#8, 0x3F000000#32⟩ = .ok (.f32ToSrgb8 0x3F000000#32) ∧
  decode ⟨0b00000010#8, 0x0000007F#32⟩ = .ok (.unorm8ToF32 0x0000007F#32) ∧
  decode ⟨0b00000011#8, 0x3F800000#32⟩ = .ok (.f32ToUnorm8 0x3F800000#32) ∧
  decode ⟨0b00000100#8, 0x0000FFFE#32⟩ = .ok (.unorm16ToF32 0x0000FFFE#32) ∧
  decode ⟨0b00000101#8, 0x3E5D0A8B#32⟩ = .ok (.f32ToUnorm16 0x3E5D0A8B#32) ∧
  decode ⟨0b00000110#8, 0x3F000000#32⟩ = .error (.illegalCommand 0x06#8) ∧
  decode ⟨0b00001000#8, 0x00000080#32⟩ = .error (.illegalCommand 0x08#8)

/-- Decode and encode agree: every instruction, with every operand word, decodes from its encoding (R61, R64, R65). -/
def Obligations.DecodeOfEncodeIsTheInstruction : Prop :=
  ∀ i : Instr, decode (encode i) = .ok i

/-- Each legal request is the encoding of the instruction it decodes to, so no bit of it is lost (R64, R65). -/
def Obligations.EncodeOfDecodeIsTheRequest : Prop :=
  ∀ (r : Request) (i : Instr), decode r = .ok i → encode i = r

/-- R67: the illegal bytes are the 250 bytes 0x06, 0x07 and 0x08 to 0xFF; whatever its OPND, an illegal request gets the
IllegalCommand response. -/
def Obligations.IllegalBytesGetTheIllegalResponse : Prop :=
  (∀ cmd : Byte, (∃ w e, decode ⟨cmd, w⟩ = .error e) ↔
    cmd.extractLsb' 3 5 ≠ 0b00000#5 ∨ cmd.extractLsb' 1 2 = 0b11#2) ∧
  (∀ cmd : Byte, (∃ w e, decode ⟨cmd, w⟩ = .error e) ↔ cmd = 0x06#8 ∨ cmd = 0x07#8 ∨ 0x08#8 ≤ cmd) ∧
  (((List.range 256).filter fun n => !cmdLegal (BitVec.ofNat 8 n)).length = 250) ∧
  ∀ (cmd : Byte) (opnd : Word) (s : State),
    (cmd.extractLsb' 3 5 ≠ 0b00000#5 ∨ cmd.extractLsb' 1 2 = 0b11#2) →
    ∃ t, perform ⟨cmd, opnd⟩ s = .next t ∧ t.result = 0x00000000#32 ∧ illFlag t.status = true

/-! ## A step and the request it takes -/

/-- A step runs the decoded instruction: when the block is ready and the next move presents a legal request, the step is
`exec` of that instruction, after the move has left the stream and its operand is filled in (R20, R72). A request in flight
is run in the same way, unless the next move is a read or a reset (R30). The last clause is the placing of an opcode-table
word (log entry 15). -/
def Obligations.StepRunsTheDecodedInstruction : Prop :=
  (∀ (s : State) (cmd : Byte) (o : HostOperand) (rest : List HostMove) (i : Instr), Ready s →
    s.pending = .request cmd o :: rest → decode ⟨cmd, operandWord s o⟩ = .ok i →
    step s = exec i { s with pending := rest, reads := s.reads ++ operandReads s o }) ∧
  (∀ (s : State) (r : Request) (i : Instr), s.inFlight = some r → decode r = .ok i →
    (∀ m rest, s.pending = m :: rest → isRead m = false ∧ m ≠ .assertReset) →
    step s = exec i { s with inFlight := none }) ∧
  ∀ (s : State) (nbits w : Nat) (i : Instr), decodeTableWord nbits w = some i →
    step (s.withFetchWord nbits w) = exec i { s with inReset := false, inFlight := none }

/-- R72: a step on a presented request writes RESULT and STATUS.ILL as `respond` gives them, for every request. -/
def Obligations.StepWritesRespond : Prop :=
  ∀ (s : State) (cmd : Byte) (o : HostOperand) (rest : List HostMove), Ready s →
    s.pending = .request cmd o :: rest →
    ∃ t, step s = .next t ∧
      t.result = (respond ⟨cmd, operandWord s o⟩).result ∧
      illFlag t.status = (respond ⟨cmd, operandWord s o⟩).ill ∧
      t.responses = s.responses ++ [respond ⟨cmd, operandWord s o⟩]

/-- R33: what a response writes into RESULT and STATUS.ILL is a function of that request alone: two blocks in any two
states, given the same CMD and OPND, write the same. -/
def Obligations.ResponseDependsOnItsRequestOnly : Prop :=
  ∀ (r : Request) (s s' : State), ∃ t t', perform r s = .next t ∧ perform r s' = .next t' ∧
    t.result = t'.result ∧ illFlag t.status = illFlag t'.status ∧
    t.responses = s.responses ++ [⟨t.result, illFlag t.status⟩] ∧
    t'.responses = s'.responses ++ [⟨t.result, illFlag t.status⟩]

/-- R167: nothing stops the machine, and a request in flight gets exactly one response after finitely many steps unless
reset discards it. -/
def Obligations.EveryAcceptedRequestIsAnswered : Prop :=
  (∀ s : State, ∃ t, step s = .next t) ∧
  ∀ (s : State) (r : Request), s.inFlight = some r →
    ∃ n t, n ≤ s.pending.length + 1 ∧ run n s = .next t ∧ t.inFlight = none ∧
      (t.responses = s.responses ++ [respond r] ∨ (t.inReset = true ∧ t.responses = s.responses))

/-- R30, R45: a request left in flight, with either operand form, is answered as if presented, RESULT and STATUS.ILL
together, and the reads made while it is in flight return what the registers held before it. The last clause says "as if
presented" whole: but for those reads the end is the state that presenting the request gives. -/
def Obligations.RequestInFlightIsAnsweredAfterReads : Prop :=
  ∀ (s : State) (cmd : Byte) (o : HostOperand) (ms : List HostMove), Ready s →
    ms.all isRead = true → s.pending = .launch cmd o :: ms →
    ∃ t, run (ms.length + 2) s = .next t ∧ Finished t ∧
      t.responses = s.responses ++ [respond ⟨cmd, operandWord s o⟩] ∧
      t.result = (respond ⟨cmd, operandWord s o⟩).result ∧ illFlag t.status = (respond ⟨cmd, operandWord s o⟩).ill ∧
      t.reads = s.reads ++ operandReads s o ++ ms.map (fun m =>
        if m = .readResult then .result s.result else .status (statusAsRead s.status)) ∧
      ∃ u, step { s with pending := [.request cmd o] } = .next u ∧ t = { u with reads := t.reads }

/-- R48 and R168: a run of a stream of requests gives one response per request, in request order, each that of its own
request; it ends with the last response in RESULT and STATUS, and its fault mark lists the illegal requests in order. An
empty run observes the reset values. -/
def Obligations.StreamIsAnsweredInOrder : Prop :=
  ∀ rs : List Request, ∃ t, run rs.length (startRun (streamOf rs)) = .next t ∧ Finished t ∧
    t.responses = rs.map respond ∧ t.index = rs.length ∧ t.faultMark = expectedMark rs ∧
    (∀ r, rs.getLast? = some r → t.result = (respond r).result ∧ illFlag t.status = (respond r).ill) ∧
    (rs = [] → observe t = ⟨[], 0x00000000#32, 0x00#8, []⟩)

/-! ## The exception and the fault mark -/

/-- R141: the IllegalCommand response is RESULT = 0 and ILL = 1, and nothing else of the block changes; the next request is
performed normally, and its response clears ILL if it is legal. (The mark's entry is R143's.) -/
def Obligations.IllegalCommandResponse : Prop :=
  ∀ (s : State) (cmd : Byte) (o : HostOperand) (rest : List HostMove), Ready s →
    s.pending = .request cmd o :: rest → cmdLegal cmd = false →
    ∃ t, step s = .next t ∧ t.result = 0x00000000#32 ∧ illFlag t.status = true ∧
      t.status &&& 0xFE#8 = s.status &&& 0xFE#8 ∧ t.inFlight = none ∧ t.inReset = false ∧
      t.responses = s.responses ++ [⟨0x00000000#32, true⟩] ∧ t.pending = rest ∧
      ∀ (cmd' : Byte) (w : Word) (rest' : List HostMove), rest = .request cmd' (.word w) :: rest' →
        ∃ u, step t = .next u ∧ u.result = (respond ⟨cmd', w⟩).result ∧
          (cmdLegal cmd' = true → illFlag u.status = false)

/-- The mark is empty at launch; every illegal request that is performed, presented or in flight, appends exactly one entry,
with the request's index and its command byte; nothing else touches the mark, and no run removes an entry (R143). That a
request which reset discards appends none is the model's choice (DEDUCED, log entry 19), for which no rule is cited. -/
def Obligations.FaultMarkRecordsEveryIllegalRequest : Prop :=
  State.reset.faultMark = [] ∧
  (∀ s t : State, step s = .next t →
    t.faultMark = s.faultMark ∧ (t.responses = s.responses ∨ ∃ w, t.responses = s.responses ++ [⟨w, false⟩]) ∨
    ∃ cmd, cmdLegal cmd = false ∧ t.faultMark = s.faultMark ++ [.illegalCommand s.index cmd] ∧
      t.responses = s.responses ++ [⟨0#32, true⟩]) ∧
  (∀ (s : State) (cmd : Byte) (o : HostOperand) (rest : List HostMove), Ready s →
    s.pending = .request cmd o :: rest → cmdLegal cmd = false →
    ∃ t, step s = .next t ∧ t.faultMark = s.faultMark ++ [.illegalCommand s.index cmd]) ∧
  (∀ (s : State) (r : Request), s.inFlight = some r → cmdLegal r.cmd = false →
    (∀ m rest, s.pending = m :: rest → isRead m = false ∧ m ≠ .assertReset) →
    ∃ t, step s = .next t ∧ t.faultMark = s.faultMark ++ [.illegalCommand s.index r.cmd]) ∧
  ∀ (n : Nat) (s t : State), run n s = .next t → s.faultMark <+: t.faultMark

/-- R24: the response to a legal request writes ILL = 0 and that to an illegal one ILL = 1, whatever ILL was; bits 7..1
are left alone, and the reset value of ILL is 0. -/
def Obligations.IllTellsTheLastRequestApart : Prop :=
  illFlag State.reset.status = false ∧
  ∀ (r : Request) (s : State), ∃ t, perform r s = .next t ∧ illFlag t.status = (!cmdLegal r.cmd) ∧
    t.status &&& 0xFE#8 = s.status &&& 0xFE#8

/-- The frame of the six commands: each completes from every state, writes RESULT, clears ILL, adds its response to the
run and advances the host's index; STATUS[7:1], the fault mark, the reset line, the request in flight, the stream and the
reads are unchanged (R21, R23, R24, R80, R110). -/
def Obligations.CommandsWriteOnlyTheirResponse : Prop :=
  ∀ (i : Instr) (s : State), ∃ t, exec i s = .next t ∧
    illFlag t.status = false ∧ t.status &&& 0xFE#8 = s.status &&& 0xFE#8 ∧
    t.responses = s.responses ++ [⟨t.result, false⟩] ∧ t.index = s.index + 1 ∧
    t.faultMark = s.faultMark ∧ t.inFlight = s.inFlight ∧ t.inReset = s.inReset ∧ t.pending = s.pending ∧
    t.reads = s.reads

/-! ## The invariant -/

/-- The invariant holds right after reset, whatever stream is placed. -/
def Obligations.InvariantHoldsAtReset : Prop := ∀ ms : List HostMove, Inv (startRun ms) ∧ Inv State.reset

/-- Every step keeps the invariant: STATUS[7:1] stay 0 (R26), the index counts the responses (R23), RESULT and ILL are the
last response's or the reset values (R25, R31), a response with ILL = 1 has result 0 (R141), the fault mark lists exactly
the illegal responses (R143), and an asserted reset holds the registers at 0 (R160). Where reset discards requests, the
index rests on log entry 9 and the mark on log entry 19 (both DEDUCED). -/
def Obligations.EveryStepKeepsTheInvariant : Prop :=
  ∀ s t : State, Inv s → step s = .next t → Inv t

/-! ## Rounding and the power -/

/-- R14, RNE32: the rounding of every rational within the binary32 range is its nearest binary32 value with ties to even,
and `bits32` is that value's pattern (for a rational that is no binary32 value this extends R13 as log entry 22 says). -/
def Obligations.RoundingIsToNearestEven : Prop :=
  ∀ x : ℚ, |x| < 2 ^ 128 - 2 ^ 103 → IsRNE32 (x : ℝ) (bits32 x) ∧ val (bits32 x) = rne32 x

/-- The vocabulary is sound: a real has at most one correctly rounded pattern (R14). -/
def Obligations.RoundedPatternIsUnique : Prop :=
  ∀ (x : ℝ) (b c : Word), IsRNE32 x b → IsRNE32 x c → b = c

/-- A binary32 value rounds to itself, in its own pattern but for -0.0 (R13, R14). -/
def Obligations.Binary32ValuesAreKept : Prop :=
  ∀ b : Word, isFinite b = true → rne32 (val b) = val b ∧ (b ≠ 0x80000000#32 → bits32 (val b) = b)

/-- R14, pow_cr: the power primitive is RNE32 of the exact real power, for all positive rationals whose power is within the
binary32 range; and pow_cr(1, y) = 1. -/
def Obligations.PowerIsCorrectlyRounded : Prop :=
  (∀ x y : ℚ, 0 < x → 0 < y → ((x : ℝ) ^ (y : ℝ)) < 2 ^ 128 - 2 ^ 103 →
    ∃ b, IsRNE32 ((x : ℝ) ^ (y : ℝ)) b ∧ powCr x y = val b) ∧
  ∀ y : ℚ, 0 < y → powCr 1 y = 1

/-- R16: the clamp, on every operand pattern. -/
def Obligations.ClampPolicy : Prop :=
  (∀ b : Word, isNaN b = true → clamp01 b = 0) ∧
  (∀ b : Word, isFinite b = true → val b < 0 → clamp01 b = 0) ∧
  (∀ b : Word, isFinite b = true → 1 < val b → clamp01 b = 1) ∧
  (∀ b : Word, isFinite b = true → 0 ≤ val b → val b ≤ 1 → clamp01 b = val b) ∧
  clamp01 0xFF800000#32 = 0 ∧ clamp01 0x7F800000#32 = 1 ∧ clamp01 0x80000000#32 = 0 ∧
  (∀ b : Word, 0x3F800000#32 < b → b ≤ 0x7F800000#32 → clamp01 b = 1) ∧
  (∀ b : Word, 0x80000000#32 ≤ b → clamp01 b = 0) ∧
  (∀ b : Word, b ≤ 0x3F800000#32 → clamp01 b = val b)

/-! ## The sRGB codec -/

/-- R81: each constant is the binary32 nearest to its literal, with the bits and the exact value of the table; both readings
of 1/2.4 give the same bits. -/
def Obligations.CodecConstants : Prop :=
  (k32 (4045 / 100000) = tDec ∧ bits32 tDec = 0x3D25AEE6#32 ∧ tDec = 0.040449999272823333740234375) ∧
  (k32 (1292 / 100) = sLin ∧ bits32 sLin = 0x414EB852#32 ∧ sLin = 12.9200000762939453125) ∧
  (k32 (55 / 1000) = aOff ∧ bits32 aOff = 0x3D6147AE#32 ∧ aOff = 0.054999999701976776123046875) ∧
  (k32 (1055 / 1000) = aScl ∧ bits32 aScl = 0x3F870A3D#32 ∧ aScl = 1.05499994754791259765625) ∧
  (k32 (24 / 10) = gExp ∧ bits32 gExp = 0x4019999A#32 ∧ gExp = 2.400000095367431640625) ∧
  (k32 (31308 / 10000000) = tEnc ∧ bits32 tEnc = 0x3B4D2E1C#32 ∧ tEnc = 0.003130800090730190277099609375) ∧
  (rne32 (5 / 12) = gInv ∧ div32 1 gExp = gInv ∧ bits32 gInv = 0x3ED55555#32 ∧
    gInv = 0.4166666567325592041015625) ∧
  val 0x437F0000#32 = 255

/-- R84: decode's branch select, for any power primitive: linear exactly for u = 0 to 10; no u meets the threshold. -/
def Obligations.DecodeBranchSelect : Prop :=
  (∀ (pow : ℚ → ℚ → ℚ) (u : Nat), u ≤ 255 →
    decodeChannel pow u =
      if u ≤ 10 then div32 (div32 u 255) sLin
      else pow (div32 (add32 (div32 u 255) aOff) aScl) gExp) ∧
  (∀ u : Nat, u ≤ 255 → (div32 u 255 < tDec ↔ u ≤ 10) ∧ div32 u 255 ≠ tDec) ∧
  bits32 (div32 10 255) = 0x3D20A0A1#32 ∧ bits32 (div32 11 255) = 0x3D30B0B1#32

/-- R86: decode's power branch, for any power primitive, and the base of its power over u = 11 to 255: its range, its value at 11, and 1 exactly at 255. -/
def Obligations.DecodePowerBase : Prop :=
  (∀ (pow : ℚ → ℚ → ℚ) (c : ℚ), decodePower pow c = pow (div32 (add32 c aOff) aScl) gExp) ∧
  (∀ u : Nat, 11 ≤ u → u ≤ 255 →
    val 0x3DBE81D9#32 ≤ div32 (add32 (div32 u 255) aOff) aScl ∧
    div32 (add32 (div32 u 255) aOff) aScl ≤ val 0x3F800000#32 ∧
    (div32 (add32 (div32 u 255) aOff) aScl = 1 ↔ u = 255)) ∧
  bits32 (add32 (div32 11 255) aOff) = 0x3DC8FC30#32 ∧
  bits32 (div32 (add32 (div32 11 255) aOff) aScl) = 0x3DBE81D9#32 ∧
  add32 1 aOff = aScl ∧ div32 aScl aScl = 1 ∧ Config.srgbPow 1 gExp = 1

/-- SRGB8_TO_F32 completes from every state, and its RESULT is that of R83 to R86 with every step correctly rounded as a
real operation; ILL is 0. -/
def Obligations.Srgb8ToF32IsCorrectlyRounded : Prop :=
  ∀ (opnd : Word) (s : State), ∃ (t : State) (c : Word),
    exec (.srgb8ToF32 opnd) s = .next t ∧ illFlag t.status = false ∧
    IsRNE32 (((opnd.extractLsb' 0 8).toNat : ℝ) / 255) c ∧
    ((val c < tDec ∧ IsRNE32 ((val c : ℝ) / (sLin : ℝ)) t.result) ∨
     (tDec ≤ val c ∧ ∃ a b : Word, IsRNE32 ((val c : ℝ) + (aOff : ℝ)) a ∧ IsRNE32 ((val a : ℝ) / (aScl : ℝ)) b ∧
        IsRNE32 ((val b : ℝ) ^ (gExp : ℝ)) t.result))

/-- R88: every decode result is a pattern in [0.0, 1.0], the results strictly increase, and the listed values are as
listed. -/
def Obligations.DecodeStrictlyIncreases : Prop :=
  (∀ opnd : Word, srgb8ToF32 Config.srgbPow opnd ≤ 0x3F800000#32) ∧
  (∀ u v : Nat, u < v → v ≤ 255 →
    srgb8ToF32 Config.srgbPow (BitVec.ofNat 32 u) < srgb8ToF32 Config.srgbPow (BitVec.ofNat 32 v)) ∧
  srgb8ToF32 Config.srgbPow 0x00000000#32 = 0x00000000#32 ∧ srgb8ToF32 Config.srgbPow 0x000000FF#32 = 0x3F800000#32 ∧
  srgb8ToF32 Config.srgbPow 0x00000001#32 = 0x399F22B4#32 ∧ srgb8ToF32 Config.srgbPow 0x00000002#32 = 0x3A1F22B4#32 ∧
  srgb8ToF32 Config.srgbPow 0x0000000A#32 = 0x3B46EB61#32 ∧ srgb8ToF32 Config.srgbPow 0x0000000B#32 = 0x3B5B518D#32

/-- R92 and R91: what encode's two branches give at f = 1 and on the two sides of the threshold. -/
def Obligations.EncodeAtTheThreshold : Prop :=
  compress Config.srgbPow 0 = 0 ∧ bits32 (compress Config.srgbPow tEnc) = 0x3D25AED5#32 ∧
  compress Config.srgbPow tEnc = mul32 tEnc sLin ∧
  bits32 (compress Config.srgbPow (val 0x3B4D2E1D#32)) = 0x3D25AECE#32 ∧
  Config.srgbPow 1 gInv = 1 ∧ mul32 aScl 1 = aScl ∧ bits32 (sub32 aScl aOff) = 0x3F7FFFFF#32 ∧
  bits32 (compress Config.srgbPow 1) = 0x3F7FFFFF#32 ∧ compress Config.srgbPow 1 ≠ 1

/-- F32_TO_SRGB8 completes from every state, and its RESULT is that of R89 to R93 with every step correctly rounded as a
real operation: clamp, branch, Q8 with one rounding of c * 255 + 1/2; RESULT[31:8] = 0 and ILL = 0. -/
def Obligations.F32ToSrgb8IsCorrectlyRounded : Prop :=
  ∀ (opnd : Word) (s : State), ∃ (t : State) (c q : Word),
    exec (.f32ToSrgb8 opnd) s = .next t ∧ illFlag t.status = false ∧
    ((clamp01 opnd ≤ tEnc ∧ IsRNE32 ((clamp01 opnd : ℝ) * (sLin : ℝ)) c) ∨
     (tEnc < clamp01 opnd ∧ ∃ p m : Word, IsRNE32 ((clamp01 opnd : ℝ) ^ (gInv : ℝ)) p ∧
        IsRNE32 ((aScl : ℝ) * (val p : ℝ)) m ∧ IsRNE32 ((val m : ℝ) - (aOff : ℝ)) c)) ∧
    IsRNE32 ((val c : ℝ) * 255 + 1 / 2) q ∧ t.result = BitVec.ofNat 32 ⌊val q⌋₊ ∧ ⌊val q⌋₊ ≤ 255

/-- R94, its corner cases: zero and one; -0.0, negatives, -inf and every NaN give 0; above 1 gives 255; subnormals give 0;
T_ENC and its neighbours give 10; the example 0.5 gives 188. -/
def Obligations.EncodeCornerCases : Prop :=
  (∀ b : Word, isNaN b = true ∨ 0x80000000#32 ≤ b ∨ b < 0x00800000#32 →
    f32ToSrgb8 Config.srgbPow b = 0x00000000#32) ∧
  (∀ b : Word, 0x3F800000#32 ≤ b → b ≤ 0x7F800000#32 → f32ToSrgb8 Config.srgbPow b = 0x000000FF#32) ∧
  f32ToSrgb8 Config.srgbPow 0x3B4D2E1B#32 = 10#32 ∧ f32ToSrgb8 Config.srgbPow 0x3B4D2E1C#32 = 10#32 ∧
  f32ToSrgb8 Config.srgbPow 0x3B4D2E1D#32 = 10#32 ∧ f32ToSrgb8 Config.srgbPow 0x3F000000#32 = 0x000000BC#32

/-- The compressed value stays in [0, 0x3F7FFFFF] for every operand (R95 item 1). -/
def Obligations.CompressedValueRange : Prop :=
  ∀ b : Word, 0 ≤ compress Config.srgbPow (clamp01 b) ∧ compress Config.srgbPow (clamp01 b) ≤ val 0x3F7FFFFF#32

/-- F32_TO_SRGB8 is non-decreasing in the value of its operand, across the threshold too (R95 item 2). An
infinity counts with the value that log entry 1 gives it. -/
def Obligations.EncodeIsMonotone : Prop :=
  ∀ (a b : Word) (s : State), isNaN a = false → isNaN b = false → val a ≤ val b →
    ∃ t u, exec (.f32ToSrgb8 a) s = .next t ∧ exec (.f32ToSrgb8 b) s = .next u ∧ t.result ≤ u.result

/-- The exact sRGB round trip, through the machine: decode, read RESULT back, encode, for every u (R95 item 3). -/
def Obligations.SrgbRoundTripIsExact : Prop :=
  ∀ (s : State) (u : Nat), Ready s → u ≤ 255 →
    s.pending = [.request 0x00#8 (.word (BitVec.ofNat 32 u)), .request 0x01#8 .lastResult] →
    ∃ t, run 2 s = .next t ∧ t.result = BitVec.ofNat 32 u ∧ illFlag t.status = false

/-! ## The unorm rescaler -/

/-- R111: UNORM8_TO_F32. -/
def Obligations.Unorm8ToF32RoundsTheQuotient : Prop :=
  (∀ opnd : Word, (encode (.unorm8ToF32 opnd)).cmd = 0x02#8) ∧
  (∀ (opnd : Word) (s : State), ∃ t, exec (.unorm8ToF32 opnd) s = .next t ∧
    IsRNE32 (((opnd.extractLsb' 0 8).toNat : ℝ) / 255) t.result ∧ illFlag t.status = false ∧
    t.faultMark = s.faultMark) ∧
  (∀ u : Nat, 0 < u → u < 255 → (val (unorm8ToF32 (BitVec.ofNat 32 u)) : ℝ) ≠ (u : ℝ) / 255) ∧
  unorm8ToF32 0x00000000#32 = 0x00000000#32 ∧ unorm8ToF32 0x000000FF#32 = 0x3F800000#32 ∧
  unorm8ToF32 0x00000001#32 = 0x3B808081#32 ∧ unorm8ToF32 0x00000080#32 = 0x3F008081#32 ∧
  unorm8ToF32 0x000001FF#32 = 0x3F800000#32 ∧ unorm8ToF32 0x0000007F#32 = 0x3EFEFEFF#32

/-- R112: F32_TO_UNORM8, with its single rounding. -/
def Obligations.F32ToUnorm8RoundsOnce : Prop :=
  (∀ opnd : Word, (encode (.f32ToUnorm8 opnd)).cmd = 0x03#8) ∧
  (∀ (opnd : Word) (s : State), ∃ (t : State) (q : Word), exec (.f32ToUnorm8 opnd) s = .next t ∧
    IsRNE32 ((clamp01 opnd : ℝ) * 255 + 1 / 2) q ∧ t.result = BitVec.ofNat 32 ⌊val q⌋₊ ∧ ⌊val q⌋₊ ≤ 255 ∧
    illFlag t.status = false ∧ t.faultMark = s.faultMark) ∧
  (∀ b : Word, isNaN b = true ∨ 0x80000000#32 ≤ b → f32ToUnorm8 b = 0x00000000#32) ∧
  (∀ b : Word, 0x3F800000#32 ≤ b → b ≤ 0x7F800000#32 → f32ToUnorm8 b = 0x000000FF#32) ∧
  f32ToUnorm8 0x3F000000#32 = 128#32 ∧ f32ToUnorm8 0x3EFEFEFF#32 = 127#32 ∧ f32ToUnorm8 0x3F010101#32 = 129#32 ∧
  f32ToUnorm8 0x3B008080#32 = 1#32 ∧ f32ToUnorm8 0x3F7F7F7F#32 = 255#32 ∧
  (⌊val 0x3F010101#32 * 255 + 1 / 2⌋₊ = 128 ∧ ⌊val 0x3B008080#32 * 255 + 1 / 2⌋₊ = 0 ∧
    ⌊val 0x3F7F7F7F#32 * 255 + 1 / 2⌋₊ = 254)

/-- R113: UNORM16_TO_F32. -/
def Obligations.Unorm16ToF32RoundsTheQuotient : Prop :=
  (∀ opnd : Word, (encode (.unorm16ToF32 opnd)).cmd = 0x04#8) ∧
  (∀ (opnd : Word) (s : State), ∃ t, exec (.unorm16ToF32 opnd) s = .next t ∧
    IsRNE32 (((opnd.extractLsb' 0 16).toNat : ℝ) / 65535) t.result ∧ illFlag t.status = false ∧
    t.faultMark = s.faultMark) ∧
  unorm16ToF32 0x00000000#32 = 0x00000000#32 ∧ unorm16ToF32 0x0000FFFF#32 = 0x3F800000#32 ∧
  unorm16ToF32 0x00000001#32 = 0x37800080#32 ∧ unorm16ToF32 0x00007FFF#32 = 0x3EFFFF00#32 ∧
  unorm16ToF32 0x00008000#32 = 0x3F000080#32 ∧ unorm16ToF32 0xABCD0000#32 = 0x00000000#32 ∧
  unorm16ToF32 0x0000FFFE#32 = 0x3F7FFF00#32

/-- R114: F32_TO_UNORM16, the product rounded and then truncated. -/
def Obligations.F32ToUnorm16TruncatesTheRoundedProduct : Prop :=
  (∀ opnd : Word, (encode (.f32ToUnorm16 opnd)).cmd = 0x05#8) ∧
  (∀ (opnd : Word) (s : State), ∃ (t : State) (p : Word), exec (.f32ToUnorm16 opnd) s = .next t ∧
    IsRNE32 ((clamp01 opnd : ℝ) * 65535) p ∧ t.result = BitVec.ofNat 32 ⌊val p⌋₊ ∧ ⌊val p⌋₊ ≤ 65535 ∧
    illFlag t.status = false ∧ t.faultMark = s.faultMark) ∧
  (∀ b : Word, isNaN b = true ∨ 0x80000000#32 ≤ b → f32ToUnorm16 b = 0x00000000#32) ∧
  (∀ b : Word, 0x3F800000#32 ≤ b → b ≤ 0x7F800000#32 → f32ToUnorm16 b = 0x0000FFFF#32) ∧
  f32ToUnorm16 0x3F7FFFFF#32 = 65534#32 ∧ mul32 (val 0x3F7FFFFF#32) 65535 = 65534.99609375 ∧
  f32ToUnorm16 0x3F000000#32 = 32767#32 ∧ mul32 (val 0x3F000000#32) 65535 = 32767.5 ∧
  f32ToUnorm16 0x37800080#32 = 1#32 ∧ f32ToUnorm16 0x3F000080#32 = 32768#32 ∧
  (⌊val 0x37800080#32 * 65535⌋₊ = 0 ∧ ⌊val 0x3F000080#32 * 65535⌋₊ = 32767) ∧
  f32ToUnorm16 0x3E5D0A8B#32 = 0x00003742#32

/-- The 8-bit unorm round trip, through the machine, for every u (R116 item 1). -/
def Obligations.Unorm8RoundTripIsExact : Prop :=
  ∀ (s : State) (u : Nat), Ready s → u ≤ 255 →
    s.pending = [.request 0x02#8 (.word (BitVec.ofNat 32 u)), .request 0x03#8 .lastResult] →
    ∃ t, run 2 s = .next t ∧ t.result = BitVec.ofNat 32 u ∧ illFlag t.status = false

/-- The 16-bit unorm round trip, through the machine, for every v (R116 item 2). -/
def Obligations.Unorm16RoundTripIsExact : Prop :=
  ∀ (s : State) (v : Nat), Ready s → v ≤ 65535 →
    s.pending = [.request 0x04#8 (.word (BitVec.ofNat 32 v)), .request 0x05#8 .lastResult] →
    ∃ t, run 2 s = .next t ∧ t.result = BitVec.ofNat 32 v ∧ illFlag t.status = false

/-- R119: the four rescaler commands are non-decreasing, and the two into float strictly increasing. -/
def Obligations.RescalerIsMonotone : Prop :=
  (∀ a b : Word, (a.extractLsb' 0 8).toNat < (b.extractLsb' 0 8).toNat → unorm8ToF32 a < unorm8ToF32 b) ∧
  (∀ a b : Word, (a.extractLsb' 0 16).toNat < (b.extractLsb' 0 16).toNat → unorm16ToF32 a < unorm16ToF32 b) ∧
  (∀ a b : Word, clamp01 a ≤ clamp01 b → f32ToUnorm8 a ≤ f32ToUnorm8 b) ∧
  (∀ a b : Word, clamp01 a ≤ clamp01 b → f32ToUnorm16 a ≤ f32ToUnorm16 b)

/-- On every binary32 in [0,1] the fused and the two-rounding form of Q8 give the same integer (R118). -/
def Obligations.FusedAndTwoRoundingQuantiserAgree : Prop :=
  ∀ b : Word, b ≤ 0x3F800000#32 →
    trunc (fma32 (val b) 255 (1 / 2)) = trunc (add32 (mul32 (val b) 255) (1 / 2))

/-! ## All commands -/

/-- Operand bits above an integer operand's width change nothing: the three commands into float give the same next state
(R65). -/
def Obligations.UpperOperandBitsAreIgnored : Prop :=
  (∀ (a b : Word) (s : State), a.extractLsb' 0 8 = b.extractLsb' 0 8 →
    exec (.srgb8ToF32 a) s = exec (.srgb8ToF32 b) s ∧ exec (.unorm8ToF32 a) s = exec (.unorm8ToF32 b) s) ∧
  ∀ (a b : Word) (s : State), a.extractLsb' 0 16 = b.extractLsb' 0 16 →
    exec (.unorm16ToF32 a) s = exec (.unorm16ToF32 b) s

/-- Every RESULT stays in its format: integer results below 2^8 or 2^16, float results patterns of values in [0,1], never
-0.0, NaN or an infinity (R66, R117, R13). -/
def Obligations.ResultsStayInTheirFormat : Prop :=
  ∀ (opnd : Word) (s : State),
    (∃ t, exec (.srgb8ToF32 opnd) s = .next t ∧ t.result ≤ 0x3F800000#32) ∧
    (∃ t, exec (.f32ToSrgb8 opnd) s = .next t ∧ t.result ≤ 0x000000FF#32) ∧
    (∃ t, exec (.unorm8ToF32 opnd) s = .next t ∧ t.result ≤ 0x3F800000#32) ∧
    (∃ t, exec (.f32ToUnorm8 opnd) s = .next t ∧ t.result ≤ 0x000000FF#32) ∧
    (∃ t, exec (.unorm16ToF32 opnd) s = .next t ∧ t.result ≤ 0x3F800000#32) ∧
    (∃ t, exec (.f32ToUnorm16 opnd) s = .next t ∧ t.result ≤ 0x0000FFFF#32)

/-- The assembler refuses `@R` on the first line, a decimal literal for an integer operand on any line, and a
pseudo-instruction between equal formats on any line, as the operand of a command and of a pseudo-instruction alike; and it
turns each of the six pseudo-instructions into its two requests. The last clause is R71's table for every operand form and
place: writing the two commands out instead of the pseudo-instruction changes nothing, also where both are refused
(R70, R71). -/
def Obligations.AssemblerExpandsPseudoInstructions : Prop :=
  (∀ (m : Mnemonic) (f g : Format) (ls : List Line),
    assemble (.command m .atR :: ls) = none ∧ assemble (.pseudo f g .atR :: ls) = none) ∧
  (∀ (f g : Format) (d : Decimal) (p : List Line),
    (.command ⟨f, .intoFloat⟩ (.dec d) ∈ p → assemble p = none) ∧ (.pseudo f g (.dec d) ∈ p → assemble p = none)) ∧
  (∀ (f : Format) (o : AsmOperand) (p : List Line), .pseudo f f o ∈ p → assemble p = none) ∧
  (∀ (f g : Format) (n : Nat), f ≠ g → n < 2 ^ 32 →
    assemble [.pseudo f g (.hex n)] = some
      [.request (Mnemonic.mk f .intoFloat).cmd (.word (BitVec.ofNat 32 n)),
       .request (Mnemonic.mk g .outOfFloat).cmd .lastResult]) ∧
  ∀ (f g : Format) (o : AsmOperand) (p q : List Line), f ≠ g →
    assemble (p ++ .pseudo f g o :: q) =
      assemble (p ++ .command ⟨f, .intoFloat⟩ o :: .command ⟨g, .outOfFloat⟩ .atR :: q)

/-- A pseudo-instruction run from a ready block composes its two conversions through the float hub (R19, R71): the second
response is that of the second command on the first one's RESULT. -/
def Obligations.PseudoInstructionComposes : Prop :=
  ∀ (s : State) (f g : Format) (n : Nat) (ms : List HostMove), Ready s →
    assemble [.pseudo f g (.hex n)] = some ms → s.pending = ms →
    ∃ t, run 2 s = .next t ∧ Finished t ∧
      t.responses = s.responses ++
        [respond ⟨(Mnemonic.mk f .intoFloat).cmd, BitVec.ofNat 32 n⟩,
         respond ⟨(Mnemonic.mk g .outOfFloat).cmd, (respond ⟨(Mnemonic.mk f .intoFloat).cmd, BitVec.ofNat 32 n⟩).result⟩]

/-- UNORM8_TO_UNORM16 of u gives 257 * u, for every u (the composition law of 95_test_vectors.md section 4; R71, R111,
R114). -/
def Obligations.Unorm8ToUnorm16Scales : Prop :=
  ∀ u : Nat, u ≤ 255 → f32ToUnorm16 (unorm8ToF32 (BitVec.ofNat 32 u)) = BitVec.ofNat 32 (257 * u)

/-- A pixel in a buffer is the plain concatenation of its channels in order, each at its exact width, in either byte order
(R43). -/
def Obligations.PixelBytesAreConcatenatedChannels : Prop :=
  (∀ (o : ByteOrder) (xs ys : List Channel), pixelBytes o (xs ++ ys) = pixelBytes o xs ++ pixelBytes o ys) ∧
  (∀ (o : ByteOrder) (b : Byte), pixelBytes o [.bits8 b] = [b]) ∧
  (∀ h : BitVec 16, pixelBytes .little [.bits16 h] = [h.extractLsb' 0 8, h.extractLsb' 8 8] ∧
    pixelBytes .big [.bits16 h] = [h.extractLsb' 8 8, h.extractLsb' 0 8]) ∧
  (∀ w : Word,
    pixelBytes .little [.bits32 w] = [w.extractLsb' 0 8, w.extractLsb' 8 8, w.extractLsb' 16 8, w.extractLsb' 24 8] ∧
    pixelBytes .big [.bits32 w] = [w.extractLsb' 24 8, w.extractLsb' 16 8, w.extractLsb' 8 8, w.extractLsb' 0 8])
end

