-- ==== Sys2Proof/Laws/Binary32.lean ====
section
/-! SUPPORT. Laws/Binary32.lean: the order of patterns is the order of their values, and what the search and the rounding
give for a real number presented by its comparisons. -/

namespace Sys2Proof.Machine

open Sys2Proof

/-- The magnitude units of a pattern written as exponent and fraction. -/
theorem magUnits_split (q r : Nat) (hr : r < 8388608) :
    magUnits (8388608 * q + r) = if q = 0 then r else (8388608 + r) * 2 ^ (q - 1) := by
  have hs : (8388608 * q + r) >>> 23 = q := by rw [Nat.shiftRight_eq_div_pow]; omega
  unfold magUnits
  cases q with
  | zero => simp_all
  | succ e =>
    have hm : (8388608 * (e + 1) + r) % 8388608 = r := by omega
    simp [hs, hm, Nat.shiftLeft_eq]

/-- The magnitude units grow with the pattern. -/
theorem magUnits_strictMono : StrictMono magUnits := by
  refine strictMono_nat_of_lt_succ fun n => ?_
  obtain ⟨q, r, hr, rfl⟩ : ∃ q r, r < 8388608 ∧ n = 8388608 * q + r :=
    ⟨n / 8388608, n % 8388608, Nat.mod_lt _ (by norm_num), by omega⟩
  rw [magUnits_split q r hr]
  by_cases hr' : r + 1 < 8388608
  · rw [Nat.add_assoc, magUnits_split q (r + 1) hr']
    split
    · omega
    · exact Nat.mul_lt_mul_of_pos_right (by omega) (Nat.two_pow_pos _)
  · obtain rfl : r = 8388607 := by omega
    have h := magUnits_split (q + 1) 0 (by norm_num)
    rw [show 8388608 * q + 8388607 + 1 = 8388608 * (q + 1) + 0 by omega, h]
    cases q with
    | zero => norm_num
    | succ e =>
      have : 0 < 2 ^ e := Nat.two_pow_pos e
      simp only [Nat.add_one_ne_zero, if_false, Nat.add_sub_cancel, pow_succ]
      omega

/-- A magnitude as a fraction. -/
theorem magVal_eq (n : Nat) : magVal n = (magUnits n : ℚ) / 2 ^ 149 := by
  rw [magVal, Rat.mkRat_eq_div, Nat.one_shiftLeft]
  norm_num

/-- The magnitudes grow with the pattern. -/
theorem magVal_strictMono : StrictMono magVal := fun m n h => by
  rw [magVal_eq, magVal_eq]
  exact div_lt_div_of_pos_right (by exact_mod_cast magUnits_strictMono h) (by positivity)

theorem magVal_nonneg (n : Nat) : 0 ≤ magVal n := by
  rw [magVal_eq]; positivity

@[simp] theorem magVal_zero : magVal 0 = 0 := by rw [magVal_eq]; simp [magUnits]

/-- What the bit search finds: an accepted number (or the start), whose successor is refused (or the end of the range). -/
theorem bitSearch_spec (ge : Nat → Bool) (i acc : Nat) :
    acc ≤ bitSearch ge i acc ∧ bitSearch ge i acc < acc + 2 ^ i ∧
    (bitSearch ge i acc = acc ∨ ge (bitSearch ge i acc) = true) ∧
    (ge (bitSearch ge i acc + 1) = false ∨ bitSearch ge i acc + 1 = acc + 2 ^ i) := by
  induction i generalizing acc with
  | zero => simp [bitSearch]
  | succ i ih =>
    have h2 : 2 ^ (i + 1) = 2 ^ i + 2 ^ i := by omega
    simp only [bitSearch, Nat.one_shiftLeft]
    cases hg : ge (acc + 2 ^ i) with
    | true =>
      obtain ⟨h1, h2', h3, h4⟩ := ih (acc + 2 ^ i)
      refine ⟨by simp only; omega, by simp only; omega, .inr ?_, ?_⟩
      · rcases h3 with h3 | h3
        · simp only [h3, hg]
        · exact h3
      · exact h4.imp_right fun h => by simp only; omega
    | false =>
      obtain ⟨h1, h2', h3, h4⟩ := ih acc
      refine ⟨h1, by simp only; omega, h3, .inl ?_⟩
      rcases h4 with h4 | h4
      · exact h4
      · simp only [h4, hg]

/-- `cmp` compares the real number `x` with the rationals from 0 on. -/
def Presents (x : ℝ) (cmp : ℚ → Ordering) : Prop :=
  ∀ m : ℚ, 0 ≤ m → (cmp m = .lt ↔ x < m) ∧ (cmp m = .eq ↔ x = m) ∧ (cmp m = .gt ↔ (m : ℝ) < x)

/-- A rational is presented by its own comparison. -/
theorem compareTo_presents (x : ℚ) : Presents x (compareTo x) := fun m _ => by
  unfold compareTo
  rcases lt_trichotomy x m with h | h | h
  · simp [h, h.ne, h.le]
  · simp [h]
  · simp [h, h.ne', h.le]

theorem Presents.isGE {x : ℝ} {cmp : ℚ → Ordering} (h : Presents x cmp) (m : ℚ) (hm : 0 ≤ m) :
    (cmp m).isGE = true ↔ (m : ℝ) ≤ x := by
  obtain ⟨h1, -, -⟩ := h m hm
  rw [← not_lt, ← h1]
  cases cmp m <;> simp [Ordering.isGE]

/-- The pattern found lies at or below the real, and its successor above it, up to the largest finite pattern. -/
theorem floorPattern_spec {x : ℝ} {cmp : ℚ → Ordering} (h : Presents x cmp) (hx : 0 ≤ x) :
    floorPattern cmp < 0x7F800000 ∧ (magVal (floorPattern cmp) : ℝ) ≤ x ∧
    (x < magVal (floorPattern cmp + 1) ∨ floorPattern cmp + 1 = 0x7F800000) := by
  have spec := bitSearch_spec (fun n => Nat.blt n 0x7F800000 && (cmp (magVal n)).isGE) 31 0
  change 0 ≤ floorPattern cmp ∧ floorPattern cmp < 0 + 2 ^ 31 ∧ _ ∧ _ at spec
  obtain ⟨-, hlt, hge, hnext⟩ := spec
  change floorPattern cmp = 0 ∨ _ at hge
  have blt (n : Nat) : (Nat.blt n 0x7F800000 && (cmp (magVal n)).isGE) = true ↔
      n < 0x7F800000 ∧ (magVal n : ℝ) ≤ x := by
    rw [Bool.and_eq_true, h.isGE _ (magVal_nonneg n), Nat.blt_eq]
  have hr : floorPattern cmp < 0x7F800000 ∧ (magVal (floorPattern cmp) : ℝ) ≤ x := by
    rcases hge with h0 | h1
    · rw [h0]; simpa using hx
    · exact (blt _).1 h1
  refine ⟨hr.1, hr.2, ?_⟩
  rcases hnext with h0 | h1
  · change (Nat.blt (floorPattern cmp + 1) 0x7F800000 && (cmp (magVal (floorPattern cmp + 1))).isGE) = false at h0
    rw [Bool.eq_false_iff, ne_eq, blt, not_and_or] at h0
    rcases h0 with h0 | h0
    · exact .inr (by omega)
    · exact .inl (not_le.1 h0)
  · change floorPattern cmp + 1 = _ at h1
    omega

/-- A pattern below the largest finite one that brackets the real is the one the search finds. -/
theorem floorPattern_eq {x : ℝ} {cmp : ℚ → Ordering} (h : Presents x cmp) (b : Nat) (hb : b < 0x7F800000)
    (hlo : (magVal b : ℝ) ≤ x) (hhi : x < magVal (b + 1)) : floorPattern cmp = b := by
  have hx : 0 ≤ x := le_trans (by exact_mod_cast magVal_nonneg b) hlo
  obtain ⟨h1, h2, h3⟩ := floorPattern_spec h hx
  have lt_of {m n : Nat} (hmn : (magVal m : ℝ) < magVal n) : m < n :=
    magVal_strictMono.lt_iff_lt.1 (by exact_mod_cast hmn)
  have hle : floorPattern cmp < b + 1 := lt_of (h2.trans_lt hhi)
  rcases h3 with h3 | h3
  · have := lt_of (hlo.trans_lt h3)
    omega
  · omega

/-- The midpoint at which the rounding turns from `b` to `b + 1`. -/
def midpoint (b : Nat) : ℚ := (magVal b + magVal (b + 1)) / 2

theorem midpoint_nonneg (b : Nat) : 0 ≤ midpoint b :=
  div_nonneg (add_nonneg (magVal_nonneg _) (magVal_nonneg _)) (by norm_num)

/-- The rounding as a choice between the pattern found and its successor, decided at the midpoint. -/
theorem nearestPattern_cases {x : ℝ} {cmp : ℚ → Ordering} (h : Presents x cmp) :
    (x < midpoint (floorPattern cmp) ∧ nearestPattern cmp = floorPattern cmp) ∨
    ((midpoint (floorPattern cmp) : ℝ) < x ∧ nearestPattern cmp = floorPattern cmp + 1) ∨
    (x = midpoint (floorPattern cmp) ∧ nearestPattern cmp % 2 = 0 ∧
      (nearestPattern cmp = floorPattern cmp ∨ nearestPattern cmp = floorPattern cmp + 1)) := by
  obtain ⟨h1, h2, h3⟩ := h (midpoint (floorPattern cmp)) (midpoint_nonneg _)
  have hn : nearestPattern cmp = match cmp (midpoint (floorPattern cmp)) with
      | .lt => floorPattern cmp
      | .gt => floorPattern cmp + 1
      | .eq => if floorPattern cmp % 2 = 0 then floorPattern cmp else floorPattern cmp + 1 := rfl
  cases hc : cmp (midpoint (floorPattern cmp)) with
  | lt => exact .inl ⟨h1.1 hc, by rw [hn, hc]⟩
  | gt => exact .inr (.inl ⟨h3.1 hc, by rw [hn, hc]⟩)
  | eq =>
    refine .inr (.inr ⟨h2.1 hc, ?_⟩)
    have hv : nearestPattern cmp = if floorPattern cmp % 2 = 0 then floorPattern cmp else floorPattern cmp + 1 := by
      rw [hn, hc]
    rw [hv]
    split <;> omega

/-- A pattern strictly between whose midpoints the real lies is the rounded one: two comparisons certify a rounding. -/
theorem nearestPattern_eq {x : ℝ} {cmp : ℚ → Ordering} (h : Presents x cmp) (hx : 0 ≤ x) (b : Nat) (hb : b < 0x7F800000)
    (hlo : b = 0 ∨ (midpoint (b - 1) : ℝ) < x) (hhi : x < midpoint b) : nearestPattern cmp = b := by
  have mono {m n : Nat} (hmn : m ≤ n) : (midpoint m : ℝ) ≤ midpoint n := by
    have h1 := magVal_strictMono.monotone hmn
    have h2 := magVal_strictMono.monotone (Nat.succ_le_succ hmn)
    have : midpoint m ≤ midpoint n := by unfold midpoint; linarith
    exact_mod_cast this
  have above (n : Nat) : (midpoint n : ℝ) < magVal (n + 1) := by
    have h1 := magVal_strictMono (Nat.lt_succ_self n)
    have : midpoint n < magVal (n + 1) := by unfold midpoint; linarith
    exact_mod_cast this
  have below (n : Nat) : (magVal n : ℝ) < midpoint n := by
    have h1 := magVal_strictMono (Nat.lt_succ_self n)
    have : magVal n < midpoint n := by unfold midpoint; linarith
    exact_mod_cast this
  have lt_of {m n : Nat} (hmn : (midpoint m : ℝ) < midpoint n) : m < n :=
    lt_of_not_ge fun hge => absurd hmn (not_lt.2 (mono hge))
  obtain ⟨f1, f2, f3⟩ := floorPattern_spec h hx
  rcases nearestPattern_cases h with ⟨c1, c2⟩ | ⟨c1, c2⟩ | ⟨c1, -, c2⟩
  · rw [c2]
    have hle : floorPattern cmp ≤ b := by
      have : (magVal (floorPattern cmp) : ℝ) < magVal (b + 1) := f2.trans_lt (hhi.trans (above b))
      have := magVal_strictMono.lt_iff_lt.1 (by exact_mod_cast this : magVal (floorPattern cmp) < magVal (b + 1))
      omega
    rcases hlo with rfl | hlo
    · omega
    · have := lt_of (hlo.trans c1)
      omega
  · rw [c2]
    have h1 := lt_of (c1.trans hhi)
    rcases hlo with rfl | hlo
    · omega
    · rcases f3 with f3 | f3
      · have : (magVal (b - 1) : ℝ) < magVal (floorPattern cmp + 1) := ((below _).trans hlo).trans f3
        have := magVal_strictMono.lt_iff_lt.1 (by exact_mod_cast this : magVal (b - 1) < magVal (floorPattern cmp + 1))
        omega
      · omega
  · have h1 := lt_of (c1 ▸ hhi)
    rcases hlo with rfl | hlo
    · omega
    · have := lt_of (c1 ▸ hlo)
      omega

end Sys2Proof.Machine
end

