-- ==== Sys2Proof/Laws/State.lean ====
section
/-! SUPPORT. Laws/State.lean: each field after each operation on the state, one lemma per field and operation. -/

namespace Sys2Proof.Machine

open Sys2Proof

@[simp] theorem writeResponse_result (s : State) (w : Word) (ill : Bool) : (writeResponse s w ill).result = w := rfl
@[simp] theorem writeResponse_status (s : State) (w : Word) (ill : Bool) : (writeResponse s w ill).status = writeIll s.status ill := rfl
@[simp] theorem writeResponse_inFlight (s : State) (w : Word) (ill : Bool) : (writeResponse s w ill).inFlight = s.inFlight := rfl
@[simp] theorem writeResponse_inReset (s : State) (w : Word) (ill : Bool) : (writeResponse s w ill).inReset = s.inReset := rfl
@[simp] theorem writeResponse_faultMark (s : State) (w : Word) (ill : Bool) : (writeResponse s w ill).faultMark = s.faultMark := rfl
@[simp] theorem writeResponse_index (s : State) (w : Word) (ill : Bool) : (writeResponse s w ill).index = s.index + 1 := rfl
@[simp] theorem writeResponse_responses (s : State) (w : Word) (ill : Bool) : (writeResponse s w ill).responses = s.responses ++ [⟨w, ill⟩] := rfl
@[simp] theorem writeResponse_pending (s : State) (w : Word) (ill : Bool) : (writeResponse s w ill).pending = s.pending := rfl
@[simp] theorem writeResponse_reads (s : State) (w : Word) (ill : Bool) : (writeResponse s w ill).reads = s.reads := rfl

@[simp] theorem answer_result (s : State) (w : Word) : (answer s w).result = w := rfl
@[simp] theorem answer_status (s : State) (w : Word) : (answer s w).status = writeIll s.status false := rfl
@[simp] theorem answer_inFlight (s : State) (w : Word) : (answer s w).inFlight = s.inFlight := rfl
@[simp] theorem answer_inReset (s : State) (w : Word) : (answer s w).inReset = s.inReset := rfl
@[simp] theorem answer_faultMark (s : State) (w : Word) : (answer s w).faultMark = s.faultMark := rfl
@[simp] theorem answer_index (s : State) (w : Word) : (answer s w).index = s.index + 1 := rfl
@[simp] theorem answer_responses (s : State) (w : Word) : (answer s w).responses = s.responses ++ [⟨w, false⟩] := rfl
@[simp] theorem answer_pending (s : State) (w : Word) : (answer s w).pending = s.pending := rfl
@[simp] theorem answer_reads (s : State) (w : Word) : (answer s w).reads = s.reads := rfl

@[simp] theorem raiseIllegalCommand_result (c : Byte) (s : State) : (raiseIllegalCommand c s).result = 0 := rfl
@[simp] theorem raiseIllegalCommand_status (c : Byte) (s : State) : (raiseIllegalCommand c s).status = writeIll s.status true := rfl
@[simp] theorem raiseIllegalCommand_inFlight (c : Byte) (s : State) : (raiseIllegalCommand c s).inFlight = s.inFlight := rfl
@[simp] theorem raiseIllegalCommand_inReset (c : Byte) (s : State) : (raiseIllegalCommand c s).inReset = s.inReset := rfl
@[simp] theorem raiseIllegalCommand_faultMark (c : Byte) (s : State) : (raiseIllegalCommand c s).faultMark = s.faultMark ++ [.illegalCommand s.index c] := rfl
@[simp] theorem raiseIllegalCommand_index (c : Byte) (s : State) : (raiseIllegalCommand c s).index = s.index + 1 := rfl
@[simp] theorem raiseIllegalCommand_responses (c : Byte) (s : State) : (raiseIllegalCommand c s).responses = s.responses ++ [⟨0, true⟩] := rfl
@[simp] theorem raiseIllegalCommand_pending (c : Byte) (s : State) : (raiseIllegalCommand c s).pending = s.pending := rfl
@[simp] theorem raiseIllegalCommand_reads (c : Byte) (s : State) : (raiseIllegalCommand c s).reads = s.reads := rfl

@[simp] theorem assertReset_result (s : State) : (assertReset s).result = 0 := rfl
@[simp] theorem assertReset_status (s : State) : (assertReset s).status = 0 := rfl
@[simp] theorem assertReset_inFlight (s : State) : (assertReset s).inFlight = none := rfl
@[simp] theorem assertReset_inReset (s : State) : (assertReset s).inReset = true := rfl
@[simp] theorem assertReset_faultMark (s : State) : (assertReset s).faultMark = s.faultMark := rfl
@[simp] theorem assertReset_index (s : State) : (assertReset s).index = s.index := rfl
@[simp] theorem assertReset_responses (s : State) : (assertReset s).responses = s.responses := rfl
@[simp] theorem assertReset_pending (s : State) : (assertReset s).pending = s.pending := rfl
@[simp] theorem assertReset_reads (s : State) : (assertReset s).reads = s.reads := rfl

@[simp] theorem releaseReset_result (s : State) : (releaseReset s).result = s.result := rfl
@[simp] theorem releaseReset_status (s : State) : (releaseReset s).status = s.status := rfl
@[simp] theorem releaseReset_inFlight (s : State) : (releaseReset s).inFlight = s.inFlight := rfl
@[simp] theorem releaseReset_inReset (s : State) : (releaseReset s).inReset = false := rfl
@[simp] theorem releaseReset_faultMark (s : State) : (releaseReset s).faultMark = s.faultMark := rfl
@[simp] theorem releaseReset_index (s : State) : (releaseReset s).index = s.index := rfl
@[simp] theorem releaseReset_responses (s : State) : (releaseReset s).responses = s.responses := rfl
@[simp] theorem releaseReset_pending (s : State) : (releaseReset s).pending = s.pending := rfl
@[simp] theorem releaseReset_reads (s : State) : (releaseReset s).reads = s.reads := rfl

@[simp] theorem readResult_result (s : State) : (readResult s).result = s.result := rfl
@[simp] theorem readResult_status (s : State) : (readResult s).status = s.status := rfl
@[simp] theorem readResult_inFlight (s : State) : (readResult s).inFlight = s.inFlight := rfl
@[simp] theorem readResult_inReset (s : State) : (readResult s).inReset = s.inReset := rfl
@[simp] theorem readResult_faultMark (s : State) : (readResult s).faultMark = s.faultMark := rfl
@[simp] theorem readResult_index (s : State) : (readResult s).index = s.index := rfl
@[simp] theorem readResult_responses (s : State) : (readResult s).responses = s.responses := rfl
@[simp] theorem readResult_pending (s : State) : (readResult s).pending = s.pending := rfl
@[simp] theorem readResult_reads (s : State) : (readResult s).reads = s.reads ++ [.result s.result] := rfl

@[simp] theorem readStatus_result (s : State) : (readStatus s).result = s.result := rfl
@[simp] theorem readStatus_status (s : State) : (readStatus s).status = s.status := rfl
@[simp] theorem readStatus_inFlight (s : State) : (readStatus s).inFlight = s.inFlight := rfl
@[simp] theorem readStatus_inReset (s : State) : (readStatus s).inReset = s.inReset := rfl
@[simp] theorem readStatus_faultMark (s : State) : (readStatus s).faultMark = s.faultMark := rfl
@[simp] theorem readStatus_index (s : State) : (readStatus s).index = s.index := rfl
@[simp] theorem readStatus_responses (s : State) : (readStatus s).responses = s.responses := rfl
@[simp] theorem readStatus_pending (s : State) : (readStatus s).pending = s.pending := rfl
@[simp] theorem readStatus_reads (s : State) : (readStatus s).reads = s.reads ++ [.status (statusAsRead s.status)] := rfl

@[simp] theorem fillOperand_result (s : State) (o : HostOperand) : (fillOperand s o).result = s.result := rfl
@[simp] theorem fillOperand_status (s : State) (o : HostOperand) : (fillOperand s o).status = s.status := rfl
@[simp] theorem fillOperand_inFlight (s : State) (o : HostOperand) : (fillOperand s o).inFlight = s.inFlight := rfl
@[simp] theorem fillOperand_inReset (s : State) (o : HostOperand) : (fillOperand s o).inReset = s.inReset := rfl
@[simp] theorem fillOperand_faultMark (s : State) (o : HostOperand) : (fillOperand s o).faultMark = s.faultMark := rfl
@[simp] theorem fillOperand_index (s : State) (o : HostOperand) : (fillOperand s o).index = s.index := rfl
@[simp] theorem fillOperand_responses (s : State) (o : HostOperand) : (fillOperand s o).responses = s.responses := rfl
@[simp] theorem fillOperand_pending (s : State) (o : HostOperand) : (fillOperand s o).pending = s.pending := rfl
@[simp] theorem fillOperand_reads (s : State) (o : HostOperand) : (fillOperand s o).reads = s.reads ++ operandReads s o := rfl

@[simp] theorem placeRequest_result (s : State) (r : Request) : (placeRequest s r).result = s.result := rfl
@[simp] theorem placeRequest_status (s : State) (r : Request) : (placeRequest s r).status = s.status := rfl
@[simp] theorem placeRequest_inFlight (s : State) (r : Request) : (placeRequest s r).inFlight = none := rfl
@[simp] theorem placeRequest_inReset (s : State) (r : Request) : (placeRequest s r).inReset = false := rfl
@[simp] theorem placeRequest_faultMark (s : State) (r : Request) : (placeRequest s r).faultMark = s.faultMark := rfl
@[simp] theorem placeRequest_index (s : State) (r : Request) : (placeRequest s r).index = s.index := rfl
@[simp] theorem placeRequest_responses (s : State) (r : Request) : (placeRequest s r).responses = s.responses := rfl
@[simp] theorem placeRequest_pending (s : State) (r : Request) : (placeRequest s r).pending = .request r.cmd (.word r.opnd) :: s.pending := rfl
@[simp] theorem placeRequest_reads (s : State) (r : Request) : (placeRequest s r).reads = s.reads := rfl

@[simp] theorem startRun_result (ms : List HostMove) : (startRun ms).result = 0 := rfl
@[simp] theorem startRun_status (ms : List HostMove) : (startRun ms).status = 0 := rfl
@[simp] theorem startRun_inFlight (ms : List HostMove) : (startRun ms).inFlight = none := rfl
@[simp] theorem startRun_inReset (ms : List HostMove) : (startRun ms).inReset = false := rfl
@[simp] theorem startRun_faultMark (ms : List HostMove) : (startRun ms).faultMark = [] := rfl
@[simp] theorem startRun_index (ms : List HostMove) : (startRun ms).index = 0 := rfl
@[simp] theorem startRun_responses (ms : List HostMove) : (startRun ms).responses = [] := rfl
@[simp] theorem startRun_pending (ms : List HostMove) : (startRun ms).pending = ms := rfl
@[simp] theorem startRun_reads (ms : List HostMove) : (startRun ms).reads = [] := rfl

end Sys2Proof.Machine
end

