-- ==== Sys2Proof/Laws/Ops.lean ====
section
/-! SUPPORT. Laws/Ops.lean: what the shared operations do, said once: the STATUS register, the decoder, performing a
request, and one host move. -/

namespace Sys2Proof.Machine

open Sys2Proof

/-- The flag reads as it was written. -/
@[simp] theorem illFlag_writeIll (st : Byte) (ill : Bool) : illFlag (writeIll st ill) = ill := by
  cases ill <;> simp [illFlag, writeIll]

/-- Writing the flag leaves bits 7..1 alone. -/
@[simp] theorem writeIll_reserved (st : Byte) (ill : Bool) : writeIll st ill &&& 0xFE#8 = st &&& 0xFE#8 := by
  revert st ill; decide

/-- A register whose reserved bits are 0 is its flag. -/
theorem status_eq_of_reserved (st : Byte) (h : st &&& 0xFE#8 = 0#8) : st = if illFlag st then 1#8 else 0#8 := by
  revert st; decide

/-- A read of a register whose reserved bits are 0 returns the register. -/
theorem statusAsRead_of_reserved (st : Byte) (h : st &&& 0xFE#8 = 0#8) : statusAsRead st = st := by
  revert st; decide

/-- Every command is answered: `exec` writes one response with ILL = 0 and stops nowhere. -/
theorem exec_answers (i : Instr) (s : State) : ∃ w, exec i s = .next (answer s w) := by
  cases i <;> exact ⟨_, rfl⟩

/-- The decoder on a legal byte: it gives an instruction, whatever the operand. -/
theorem decode_legal (cmd : Byte) (h : cmdLegal cmd = true) (w : Word) : ∃ i, decode ⟨cmd, w⟩ = .ok i := by
  have key : ∀ c : Byte, cmdLegal c = true →
      c = 0 ∨ c = 1 ∨ c = 2 ∨ c = 3 ∨ c = 4 ∨ c = 5 := by decide
  rcases key cmd h with rfl | rfl | rfl | rfl | rfl | rfl
  · exact ⟨.srgb8ToF32 w, by simp [decode, rsvField, fmtField, dirField]⟩
  · exact ⟨.f32ToSrgb8 w, by simp [decode, rsvField, fmtField, dirField]⟩
  · exact ⟨.unorm8ToF32 w, by simp [decode, rsvField, fmtField, dirField]⟩
  · exact ⟨.f32ToUnorm8 w, by simp [decode, rsvField, fmtField, dirField]⟩
  · exact ⟨.unorm16ToF32 w, by simp [decode, rsvField, fmtField, dirField]⟩
  · exact ⟨.f32ToUnorm16 w, by simp [decode, rsvField, fmtField, dirField]⟩

/-- The decoder on an illegal byte: it names the byte. -/
theorem decode_illegal (cmd : Byte) (h : cmdLegal cmd = false) (w : Word) :
    decode ⟨cmd, w⟩ = .error (.illegalCommand cmd) := by
  have key : ∀ c : Byte, cmdLegal c = false →
      decode ⟨c, 0⟩ = .error (.illegalCommand c) := by decide
  have hc := key cmd h
  revert hc
  simp only [decode]
  split <;> simp_all

/-- Performing a request, whole: a legal one is answered, an illegal one takes the exception. -/
theorem perform_cases (r : Request) (s : State) :
    (∃ i w, cmdLegal r.cmd = true ∧ decode r = .ok i ∧ exec i s = .next (answer s w) ∧
      perform r s = .next (answer s w)) ∨
    (cmdLegal r.cmd = false ∧ perform r s = .next (raiseIllegalCommand r.cmd s)) := by
  obtain ⟨cmd, w⟩ := r
  cases h : cmdLegal cmd with
  | true =>
    obtain ⟨i, hi⟩ := decode_legal cmd h w
    obtain ⟨v, hv⟩ := exec_answers i s
    exact .inl ⟨i, v, rfl, hi, hv, by simp [perform, hi, hv]⟩
  | false => exact .inr ⟨rfl, by simp [perform, decode_illegal cmd h w]⟩

/-- The state after a performed request, with the response it wrote: every field that a response does not write is as
before, and the fault mark gains an entry exactly when ILL is 1. -/
structure Performed (r : Request) (s t : State) (result : Word) (ill : Bool) : Prop where
  ill_iff : ill = !cmdLegal r.cmd
  result_zero : ill = true → result = 0#32
  eq : t = { writeResponse s result ill with
    faultMark := s.faultMark ++ if ill then [.illegalCommand s.index r.cmd] else [] }

/-- Performing a request always writes one response. -/
theorem perform_performed (r : Request) (s : State) :
    ∃ t result ill, perform r s = .next t ∧ Performed r s t result ill := by
  rcases perform_cases r s with ⟨_, w, hl, _, _, hp⟩ | ⟨hl, hp⟩
  · exact ⟨_, w, false, hp, by simp [hl], by simp, by simp [answer, writeResponse]⟩
  · exact ⟨_, 0, true, hp, by simp [hl], by simp, rfl⟩

/-- What one step can do. -/
inductive StepCase (s t : State) : Prop where
  /-- Nothing is left to do. -/
  | idle (h : s.inFlight = none) (hp : s.pending = []) (ht : t = s)
  /-- The host asserts reset, with or without a request in flight. -/
  | reset (rest) (hp : s.pending = .assertReset :: rest) (ht : t = assertReset { s with pending := rest })
  /-- The host releases reset. -/
  | release (rest) (h : s.inFlight = none) (hp : s.pending = .releaseReset :: rest)
      (ht : t = releaseReset { s with pending := rest })
  /-- The host reads RESULT. -/
  | readResult (rest) (hp : s.pending = .readResult :: rest) (ht : t = readResult { s with pending := rest })
  /-- The host reads STATUS. -/
  | readStatus (rest) (hp : s.pending = .readStatus :: rest) (ht : t = readStatus { s with pending := rest })
  /-- A request presented during reset gets no response. -/
  | dropped (m rest) (h : s.inFlight = none) (hr : s.inReset = true) (hp : s.pending = m :: rest)
      (ht : t = { s with pending := rest })
  /-- A request is accepted and stays in flight. -/
  | launched (cmd o rest) (h : s.inFlight = none) (hr : s.inReset = false) (hp : s.pending = .launch cmd o :: rest)
      (ht : t = { fillOperand { s with pending := rest } o with inFlight := some (issued s cmd o) })
  /-- A request is presented and answered. -/
  | answered (cmd o rest result ill) (h : s.inFlight = none) (hr : s.inReset = false)
      (hp : s.pending = .request cmd o :: rest)
      (ht : Performed (issued s cmd o) (fillOperand { s with pending := rest } o) t result ill)
  /-- The request in flight is answered. -/
  | completed (r result ill) (h : s.inFlight = some r)
      (ht : Performed r { s with inFlight := none } t result ill)

/-- Every step answers a next state, by one of the cases. -/
theorem step_cases (s : State) : ∃ t, step s = .next t ∧ StepCase s t := by
  have done (r : Request) (h : s.inFlight = some r) (hc : step s = complete r s) :
      ∃ t, step s = .next t ∧ StepCase s t := by
    obtain ⟨t, w, ill, hp, hperf⟩ := perform_performed r { s with inFlight := none }
    exact ⟨t, hc.trans hp, .completed r w ill h hperf⟩
  have issued_pending (rest : List HostMove) (cmd : Byte) (o : HostOperand) :
      issued { s with pending := rest } cmd o = issued s cmd o := by cases o <;> rfl
  cases hf : s.inFlight with
  | some r =>
    cases hp : s.pending with
    | nil => exact done r hf (by simp [step, advance, hf, hp])
    | cons m rest =>
      cases m with
      | assertReset => exact ⟨_, by simp only [step, advance, hf, hp], .reset rest hp rfl⟩
      | readResult => exact ⟨_, by simp only [step, advance, hf, hp], .readResult rest hp rfl⟩
      | readStatus => exact ⟨_, by simp only [step, advance, hf, hp], .readStatus rest hp rfl⟩
      | request _ _ => exact done r hf (by simp [step, advance, hf, hp])
      | launch _ _ => exact done r hf (by simp [step, advance, hf, hp])
      | releaseReset => exact done r hf (by simp [step, advance, hf, hp])
  | none =>
    cases hp : s.pending with
    | nil => exact ⟨s, by simp [step, advance, hf, hp], .idle hf hp rfl⟩
    | cons m rest =>
      have hs : step s = takeMove m { s with pending := rest } := by simp [step, advance, hf, hp]
      cases hr : s.inReset with
      | true =>
        cases m with
        | request cmd o => exact ⟨_, by simp only [hs, takeMove, hr, if_true], .dropped _ rest hf hr hp rfl⟩
        | launch cmd o => exact ⟨_, by simp only [hs, takeMove, hr, if_true], .dropped _ rest hf hr hp rfl⟩
        | readResult => exact ⟨_, hs, .readResult rest hp rfl⟩
        | readStatus => exact ⟨_, hs, .readStatus rest hp rfl⟩
        | assertReset => exact ⟨_, hs, .reset rest hp rfl⟩
        | releaseReset => exact ⟨_, hs, .release rest hf hp rfl⟩
      | false =>
        cases m with
        | request cmd o =>
          obtain ⟨t, w, ill, hp', hperf⟩ :=
            perform_performed (issued s cmd o) (fillOperand { s with pending := rest } o)
          refine ⟨t, ?_, .answered cmd o rest w ill hf hr hp hperf⟩
          rw [hs, ← hp', ← issued_pending rest]
          exact if_neg (by simp [hr])
        | launch cmd o =>
          refine ⟨_, ?_, .launched cmd o rest hf hr hp rfl⟩
          rw [hs, ← issued_pending rest]
          exact if_neg (by simp [hr])
        | readResult => exact ⟨_, hs, .readResult rest hp rfl⟩
        | readStatus => exact ⟨_, hs, .readStatus rest hp rfl⟩
        | assertReset => exact ⟨_, hs, .reset rest hp rfl⟩
        | releaseReset => exact ⟨_, hs, .release rest hf hp rfl⟩

end Sys2Proof.Machine
end

