-- ==== Sys2Proof/Laws/PerInstr.lean ====
section
/-! SUPPORT. Laws/PerInstr.lean: the family Encoding: what is true of every instruction's encoding, one lemma per
constructor. -/

namespace Sys2Proof.Laws.Encoding

open Sys2Proof

/-- The instruction encodes to a legal command byte and to its whole operand word (30_encoding.md R64, R65). -/
def Statement (i : Instr) : Prop := (encode i).wf = true ∧ (encode i).opnd = i.operand

/-- Every mnemonic's command byte is legal. -/
theorem mnemonic_legal (f : Format) (d : Direction) : cmdLegal (Mnemonic.cmd ⟨f, d⟩) = true := by
  cases f <;> cases d <;> decide

theorem srgb8ToF32 (opnd : Word) : Statement (.srgb8ToF32 opnd) := ⟨mnemonic_legal _ _, rfl⟩
theorem f32ToSrgb8 (opnd : Word) : Statement (.f32ToSrgb8 opnd) := ⟨mnemonic_legal _ _, rfl⟩
theorem unorm8ToF32 (opnd : Word) : Statement (.unorm8ToF32 opnd) := ⟨mnemonic_legal _ _, rfl⟩
theorem f32ToUnorm8 (opnd : Word) : Statement (.f32ToUnorm8 opnd) := ⟨mnemonic_legal _ _, rfl⟩
theorem unorm16ToF32 (opnd : Word) : Statement (.unorm16ToF32 opnd) := ⟨mnemonic_legal _ _, rfl⟩
theorem f32ToUnorm16 (opnd : Word) : Statement (.f32ToUnorm16 opnd) := ⟨mnemonic_legal _ _, rfl⟩

end Sys2Proof.Laws.Encoding
end

