-- ==== Sys2Proof/Laws/Power.lean ====
section
/-! SUPPORT. Laws/Power.lean: the bounds of the power enclose what they bound, and the comparison made on them is the exact
one. -/

namespace Sys2Proof.Machine

open Sys2Proof

@[simp] theorem evalNat_eq {α : Type} (n : Nat) (k : Nat → α) : evalNat n k = k n := by cases n <;> rfl

@[simp] theorem evalBounds_eq {α : Type} (v : Bounds) (k : Bounds → α) : evalBounds v k = k v := by
  simp [evalBounds]

/-- `v` bounds the number `n`. -/
def Encloses (v : Bounds) (n : Nat) : Prop := v.lo * 2 ^ v.e ≤ n ∧ n ≤ v.hi * 2 ^ v.e

theorem trimBounds_encloses (f : Nat) (v : Bounds) (n : Nat) (h : Encloses v n) : Encloses (trimBounds f v) n := by
  induction f generalizing v with
  | zero => exact h
  | succ f ih =>
    unfold trimBounds
    split
    · exact h
    · rw [evalBounds_eq]
      apply ih
      have hp : 2 ^ (v.e + 64) = 2 ^ 64 * 2 ^ v.e := by rw [pow_add, mul_comm]
      have hlo : v.lo >>> 64 * 2 ^ 64 ≤ v.lo := by
        rw [Nat.shiftRight_eq_div_pow]; exact Nat.div_mul_le_self _ _
      have hhi : v.hi ≤ (v.hi + 0xFFFFFFFFFFFFFFFF) >>> 64 * 2 ^ 64 := by
        rw [Nat.shiftRight_eq_div_pow]; omega
      constructor
      · simp only [hp, ← mul_assoc]
        exact (Nat.mul_le_mul_right _ hlo).trans h.1
      · simp only [hp, ← mul_assoc]
        exact h.2.trans (Nat.mul_le_mul_right _ hhi)

theorem mulBounds_encloses {a b : Bounds} {m n : Nat} (ha : Encloses a m) (hb : Encloses b n) :
    Encloses (mulBounds a b) (m * n) := by
  rw [mulBounds, evalBounds_eq]
  apply trimBounds_encloses
  have regroup (x y : Nat) : x * y * 2 ^ (a.e + b.e) = (x * 2 ^ a.e) * (y * 2 ^ b.e) := by rw [pow_add]; ring
  constructor
  · simp only [regroup]; exact Nat.mul_le_mul ha.1 hb.1
  · simp only [regroup]; exact Nat.mul_le_mul ha.2 hb.2

theorem powBoundsGo_encloses (n fuel p : Nat) (h : p < 2 ^ fuel) : Encloses (powBoundsGo n fuel p) (n ^ p) := by
  have one : Encloses ⟨1, 1, 0⟩ (n ^ 0) := ⟨by simp, by simp⟩
  induction fuel generalizing p with
  | zero =>
    obtain rfl : p = 0 := by simpa using h
    exact one
  | succ f ih =>
    cases p with
    | zero => exact one
    | succ q =>
      have hq : (q + 1) / 2 < 2 ^ f := by
        rw [Nat.div_lt_iff_lt_mul (by norm_num), ← pow_succ]
        exact h
      have hhalf := ih ((q + 1) / 2) hq
      have hsq := mulBounds_encloses hhalf hhalf
      simp only [powBoundsGo, evalBounds_eq, Nat.succ_eq_add_one]
      split
      next h0 =>
        rw [← pow_add] at hsq
        rwa [show (q + 1) / 2 + (q + 1) / 2 = q + 1 by omega] at hsq
      next h0 =>
        have hodd : (q + 1) % 2 ≠ 0 := h0
        have hn : Encloses ⟨n, n, 0⟩ n := ⟨by simp, by simp⟩
        have := mulBounds_encloses hsq hn
        rw [← pow_add, ← pow_succ] at this
        rwa [show (q + 1) / 2 + (q + 1) / 2 + 1 = q + 1 by omega] at this

/-- The bounds of a power enclose it. -/
theorem powBounds_encloses (n p : Nat) : Encloses (powBounds n p) (n ^ p) :=
  powBoundsGo_encloses n p p Nat.lt_two_pow_self

/-- The scaled comparison is exact. -/
theorem scaledLt_iff (a i b j : Nat) : scaledLt a i b j = true ↔ a * 2 ^ i < b * 2 ^ j := by
  have far (x y d : Nat) (hx : x < 2 ^ 1024) (hy : 0 < y) (hd : 1024 ≤ d) : x < y * 2 ^ d :=
    hx.trans_le ((Nat.pow_le_pow_right (by norm_num) hd).trans (Nat.le_mul_of_pos_left _ hy))
  unfold scaledLt
  split
  next h =>
    have hij := Nat.le_of_ble_eq_true h
    have hb : b * 2 ^ j = b * 2 ^ (j - i) * 2 ^ i := by rw [mul_assoc, ← pow_add, Nat.sub_add_cancel hij]
    rw [hb, Nat.mul_lt_mul_right (Nat.two_pow_pos i)]
    simp only [Bool.or_eq_true, Bool.and_eq_true, Nat.ble_eq, Nat.blt_eq, Nat.shiftLeft_eq, one_mul]
    exact ⟨fun h => h.elim (fun h => far a b _ h.1.2 h.2 (by omega)) id, .inr⟩
  next h =>
    have hji : j < i := by rw [← not_le, ← Nat.ble_eq, h]; exact Bool.false_ne_true
    have ha : a * 2 ^ i = a * 2 ^ (i - j) * 2 ^ j := by rw [mul_assoc, ← pow_add, Nat.sub_add_cancel hji.le]
    rw [ha, Nat.mul_lt_mul_right (Nat.two_pow_pos j), Bool.and_eq_true, Nat.blt_eq, Nat.shiftLeft_eq a]
    refine ⟨And.right, fun h => ⟨?_, h⟩⟩
    rw [Bool.not_eq_true', Bool.eq_false_iff]
    intro hc
    simp only [Bool.and_eq_true, Nat.ble_eq, Nat.blt_eq, Nat.shiftLeft_eq, one_mul] at hc
    exact absurd h (far b a _ hc.1.2 hc.2 (by omega)).le.not_gt

/-- Where the bounds decide, they decide right. -/
theorem boundsOrder_sound {a b : Bounds} {m n : Nat} (ha : Encloses a m) (hb : Encloses b n) (o : Ordering)
    (h : boundsOrder a b = some o) : o = compareTo m n := by
  unfold boundsOrder at h
  split at h
  next hlt =>
    have hmn : m < n := ha.2.trans_lt (((scaledLt_iff ..).1 hlt).trans_le hb.1)
    simp only [Option.some.injEq] at h
    subst h
    simp [compareTo, hmn]
  next =>
    split at h
    next hgt =>
      have hnm : n < m := hb.2.trans_lt (((scaledLt_iff ..).1 hgt).trans_le ha.1)
      simp only [Option.some.injEq] at h
      subst h
      simp [compareTo, hnm.le, hnm.ne']
    next => simp at h

/-- Comparing two fractions of natural numbers is comparing the cross products. -/
theorem compareTo_cross (a b c d : Nat) (hb : 0 < b) (hd : 0 < d) :
    compareTo ((a * d : Nat) : ℚ) ((c * b : Nat) : ℚ) = compareTo ((a : ℚ) / b) ((c : ℚ) / d) := by
  have hb' : (0 : ℚ) < b := by exact_mod_cast hb
  have hd' : (0 : ℚ) < d := by exact_mod_cast hd
  have h1 : ((a * d : Nat) : ℚ) < ((c * b : Nat) : ℚ) ↔ (a : ℚ) / b < (c : ℚ) / d := by
    rw [div_lt_div_iff₀ hb' hd']; push_cast; rfl
  have h2 : ((a * d : Nat) : ℚ) = ((c * b : Nat) : ℚ) ↔ (a : ℚ) / b = (c : ℚ) / d := by
    rw [div_eq_div_iff hb'.ne' hd'.ne']; push_cast; rfl
  simp only [compareTo, h1, h2]

/-- A non-negative rational is the fraction of its numerator, as a natural number, and its denominator. -/
theorem eq_num_div_den (x : ℚ) (hx : 0 ≤ x) : x = (x.num.toNat : ℚ) / x.den := by
  have h : ((x.num.toNat : ℤ) : ℚ) = x.num := by rw [Int.toNat_of_nonneg (Rat.num_nonneg.2 hx)]
  rw [← Int.cast_natCast, h, Rat.num_div_den]

/-- The comparison of a power made on bounds is the exact comparison `x ^ p` against `m ^ d` (R14). -/
theorem powCompare_eq (x y m : ℚ) (xn xd : Bounds) (hx : 0 ≤ x) (hm : 0 ≤ m)
    (hn : Encloses xn (x.num.toNat ^ y.num.toNat)) (hd : Encloses xd (x.den ^ y.num.toNat)) :
    powCompare x y xn xd m = compareTo (x ^ y.num.toNat) (m ^ y.den) := by
  unfold powCompare
  split
  next o ho =>
    rw [boundsOrder_sound (mulBounds_encloses hn (powBounds_encloses _ _))
        (mulBounds_encloses (powBounds_encloses _ _) hd) o ho,
      compareTo_cross _ _ _ _ (Nat.pow_pos x.den_pos) (Nat.pow_pos m.den_pos)]
    conv_rhs => rw [eq_num_div_den x hx, eq_num_div_den m hm, div_pow, div_pow]
    push_cast
    rfl
  next => rfl

/-- The exact comparison of powers is the comparison of the real `x ^ y`. -/
theorem powCompare_presents (x y : ℚ) (xn xd : Bounds) (hx : 0 < x) (hy : 0 < y)
    (hn : Encloses xn (x.num.toNat ^ y.num.toNat)) (hd : Encloses xd (x.den ^ y.num.toNat)) :
    Presents ((x : ℝ) ^ (y : ℝ)) (powCompare x y xn xd) := by
  intro m hm
  rw [powCompare_eq x y m xn xd hx.le hm hn hd]
  have hxr : (0 : ℝ) < x := by exact_mod_cast hx
  have hpow : ((x : ℝ) ^ (y : ℝ)) ^ y.den = (x : ℝ) ^ y.num.toNat := by
    rw [← Real.rpow_natCast, ← Real.rpow_mul hxr.le, ← Real.rpow_natCast]
    congr 1
    have h1 : y * y.den = y.num.toNat := by
      have := eq_num_div_den y hy.le
      have hd : (y.den : ℚ) ≠ 0 := by exact_mod_cast y.den_ne_zero
      field_simp at this
      exact_mod_cast this
    exact_mod_cast h1
  have hr : 0 ≤ (x : ℝ) ^ (y : ℝ) := Real.rpow_nonneg hxr.le _
  have hm' : (0 : ℝ) ≤ m := by exact_mod_cast hm
  have hlt : x ^ y.num.toNat < m ^ y.den ↔ (x : ℝ) ^ (y : ℝ) < m := by
    rw [← pow_lt_pow_iff_left₀ hr hm' y.den_ne_zero, hpow]; exact_mod_cast Iff.rfl
  have heq : x ^ y.num.toNat = m ^ y.den ↔ (x : ℝ) ^ (y : ℝ) = m := by
    rw [← pow_left_inj₀ hr hm' y.den_ne_zero, hpow]; exact_mod_cast Iff.rfl
  have hgt : m ^ y.den < x ^ y.num.toNat ↔ (m : ℝ) < (x : ℝ) ^ (y : ℝ) := by
    rw [← pow_lt_pow_iff_left₀ hm' hr y.den_ne_zero, hpow]; exact_mod_cast Iff.rfl
  rw [← hlt, ← heq, ← hgt]
  unfold compareTo
  rcases lt_trichotomy (x ^ y.num.toNat) (m ^ y.den) with h | h | h
  · simp [h, h.ne, h.le]
  · simp [h]
  · simp [h, h.ne', h.le]

/-- The power primitive as a rounding of a presented real: what it gives is `nearestPattern_cases` of `x ^ y`. -/
theorem powCr_eq (x y : ℚ) (hx : 0 < x) (hy : 0 < y) :
    ∃ cmp, Presents ((x : ℝ) ^ (y : ℝ)) cmp ∧ powCr x y = magVal (nearestPattern cmp) :=
  ⟨_, powCompare_presents x y _ _ hx hy (powBounds_encloses _ _) (powBounds_encloses _ _), by
    simp only [powCr, evalBounds_eq]⟩

end Sys2Proof.Machine
end

