-- ==== Sys2Proof/Machine/AsmText.lean ====
section
/-! DEFINITION. AsmText.lean: the text of a command stream, read into assembly lines (30_encoding.md R70, R71). -/

namespace Sys2Proof.Machine

open Sys2Proof

/-- White space within a line. -/
def isBlank (c : Char) : Bool := c == ' ' || c == '\t' || c == '\r'

/-- A finished word, gathered last character first. -/
def finishWord (word : List Char) : List (List Char) := if word.isEmpty then [] else [word.reverse]

/-- The words of a line: separated by blanks, a comma a word of its own, `;` starting a comment (R70). -/
def lineWords : List Char → List Char → List (List Char)
  | [], word => finishWord word
  | c :: cs, word =>
    if c == ';' then finishWord word
    else if isBlank c then finishWord word ++ lineWords cs []
    else if c == ',' then finishWord word ++ [','] :: lineWords cs []
    else lineWords cs (c :: word)

/-- The value of a digit in a base up to 16. -/
def digitValue (base : Nat) (c : Char) : Option Nat :=
  let n := c.toNat
  let d :=
    if 48 ≤ n ∧ n ≤ 57 then n - 48
    else if 65 ≤ n ∧ n ≤ 70 then n - 55
    else if 97 ≤ n ∧ n ≤ 102 then n - 87
    else 16
  if d < base then some d else none

/-- A sequence of digits after the value `acc`. -/
def readDigits (base : Nat) : List Char → Nat → Option Nat
  | [], acc => some acc
  | c :: cs, acc =>
    match digitValue base c with
    | some d => readDigits base cs (acc * base + d)
    | none => none

/-- `0x` followed by 1 to 8 digits (R70). -/
def readHex : List Char → Option Nat
  | '0' :: 'x' :: ds => if 1 ≤ ds.length ∧ ds.length ≤ 8 then readDigits 16 ds 0 else none
  | _ => none

/-- Decimal digits, and after a point further ones, up to a closing `f` (R70; log entry 17). -/
def readUnsigned (negative : Bool) (cs : List Char) : Option Decimal :=
  match cs.span Char.isDigit with
  | (whole, ['f']) =>
    if whole.isEmpty then none else (readDigits 10 whole 0).map fun n => ⟨negative, n, 0⟩
  | (whole, '.' :: rest) =>
    match rest.span Char.isDigit with
    | (part, ['f']) =>
      if whole.isEmpty || part.isEmpty then none
      else (readDigits 10 (whole ++ part) 0).map fun n => ⟨negative, n, part.length⟩
    | _ => none
  | _ => none

/-- A decimal literal followed by `f`, with an optional minus sign (R70). -/
def readDecimal : List Char → Option Decimal
  | '-' :: cs => readUnsigned true cs
  | cs => readUnsigned false cs

/-- An operand: `@R`, hexadecimal, or a decimal literal (R70). -/
def readOperand (word : List Char) : Option AsmOperand :=
  if word == ['@', 'R'] then some .atR
  else match readHex word with
    | some n => some (.hex n)
    | none => (readDecimal word).map .dec

/-- The mnemonics of R64. -/
def mnemonicNames : List (String × Mnemonic) :=
  [("SRGB8_TO_F32", ⟨.srgb8, .intoFloat⟩), ("F32_TO_SRGB8", ⟨.srgb8, .outOfFloat⟩),
   ("UNORM8_TO_F32", ⟨.unorm8, .intoFloat⟩), ("F32_TO_UNORM8", ⟨.unorm8, .outOfFloat⟩),
   ("UNORM16_TO_F32", ⟨.unorm16, .intoFloat⟩), ("F32_TO_UNORM16", ⟨.unorm16, .outOfFloat⟩)]

/-- The pseudo-instructions of R71. -/
def pseudoNames : List (String × Format × Format) :=
  [("SRGB8_TO_UNORM8", .srgb8, .unorm8), ("SRGB8_TO_UNORM16", .srgb8, .unorm16),
   ("UNORM8_TO_SRGB8", .unorm8, .srgb8), ("UNORM16_TO_SRGB8", .unorm16, .srgb8),
   ("UNORM8_TO_UNORM16", .unorm8, .unorm16), ("UNORM16_TO_UNORM8", .unorm16, .unorm8)]

/-- The entry of a name list that a word spells. -/
def lookupName {α : Type} (names : List (String × α)) (word : List Char) : Option α :=
  (names.find? fun p => p.1.toList == word).map fun p => p.2

/-- A line of two words: a command or a pseudo-instruction and its operand (R70, R71). -/
def readCommand (name operand : List Char) : Option Line :=
  match readOperand operand with
  | none => none
  | some o =>
    match lookupName mnemonicNames name with
    | some m => some (.command m o)
    | none => (lookupName pseudoNames name).map fun p => .pseudo p.1 p.2 o

/-- One line of text: no line of assembly for a blank one, `none` for text that is none (R70). -/
def readLine (text : List Char) : Option (List Line) :=
  match lineWords text [] with
  | [] => some []
  | [name, operand] => (readCommand name operand).map fun l => [l]
  | [name, cmd, [','], opnd] =>
    if name == ".req".toList then
      match readHex cmd, readHex opnd with
      | some c, some w => some [.req c w]
      | _, _ => none
    else none
  | _ => none

/-- The lines of a text, each gathered last character first. -/
def splitLines : List Char → List Char → List (List Char)
  | [], line => [line.reverse]
  | c :: cs, line => if c == '\n' then line.reverse :: splitLines cs [] else splitLines cs (c :: line)

/-- The assembly lines of a text. -/
def readLines : List (List Char) → Option (List Line)
  | [] => some []
  | t :: ts =>
    match readLine t, readLines ts with
    | some l, some ls => some (l ++ ls)
    | _, _ => none

/-- A program's command stream from its text (R70). -/
def assembleText (text : String) : Option (List HostMove) :=
  match readLines (splitLines text.toList []) with
  | some p => assemble p
  | none => none

end Sys2Proof.Machine
end

