-- ==== Sys2Proof/Tests/Slice0.lean ====
section
/-! SUPPORT. Tests/Slice0.lean: well-formedness smoke tests, decoding tests on words written from the spec, one or two
vectors of 95_test_vectors.md per command, the state vectors V1 to V10, and a witness for every statement's hypotheses. -/

namespace Sys2Proof.Tests

open Sys2Proof Sys2Proof.Machine

/-! ## Well-formedness: an ill-formed term for each check (R64, R67, R70, R71) -/

theorem test_wf_request_rsv : Request.wf ⟨0x08#8, 0x80#32⟩ = false := by decide
theorem test_wf_request_fmt : Request.wf ⟨0x06#8, 0x3F000000#32⟩ = false := by decide
theorem test_wf_request_legal : Request.wf ⟨0x05#8, 0#32⟩ = true := by decide
theorem test_wf_decimal_out_of_range : Decimal.wf ⟨false, 10 ^ 39, 0⟩ = false := by decide
theorem test_wf_decimal_in_range : Decimal.wf ⟨true, 10, 1⟩ = true := by decide
theorem test_wf_hex_nine_digits : AsmOperand.wf false .intoFloat (.hex 0x100000000) = false := by decide
theorem test_wf_decimal_for_integer : AsmOperand.wf false .intoFloat (.dec ⟨false, 5, 1⟩) = false := by decide
theorem test_wf_result_on_first_line : AsmOperand.wf true .outOfFloat .atR = false := by decide
theorem test_wf_req_byte : Line.wf true (.req 0x106 0) = false := by decide
theorem test_wf_req_operand : Line.wf true (.req 0x06 0x100000000) = false := by decide
theorem test_wf_req_legal_byte : Line.wf true (.req 0x05 0) = false := by decide
theorem test_wf_pseudo_same_format : Line.wf true (.pseudo .unorm8 .unorm8 (.hex 1)) = false := by decide
theorem test_wf_pseudo_operand : Line.wf true (.pseudo .unorm8 .srgb8 .atR) = false := by decide
theorem test_wf_program_later_line :
    programWf [.command ⟨.srgb8, .intoFloat⟩ (.hex 1), .req 0x05 0] = false := by decide
theorem test_wf_program :
    programWf [.command ⟨.srgb8, .intoFloat⟩ (.hex 0x80), .command ⟨.unorm16, .outOfFloat⟩ .atR, .req 0x0B 0x80,
      .pseudo .unorm16 .srgb8 (.hex 7)] = true := by decide

/-! ## Decoding: words written out from R61 and R64 -/

theorem test_decode_srgb8ToF32 : decodeTableWord 8 0b00000000 = some (.srgb8ToF32 0) := by decide
theorem test_decode_f32ToSrgb8 : decodeTableWord 8 0b00000001 = some (.f32ToSrgb8 0) := by decide
theorem test_decode_unorm8ToF32 : decodeTableWord 8 0b00000010 = some (.unorm8ToF32 0) := by decide
theorem test_decode_f32ToUnorm8 : decodeTableWord 8 0b00000011 = some (.f32ToUnorm8 0) := by decide
theorem test_decode_unorm16ToF32 : decodeTableWord 8 0b00000100 = some (.unorm16ToF32 0) := by decide
theorem test_decode_f32ToUnorm16 : decodeTableWord 8 0b00000101 = some (.f32ToUnorm16 0) := by decide
theorem test_decode_fmt_reserved : decode ⟨0b00000110#8, 0#32⟩ = .error (.illegalCommand 0x06#8) := by decide
theorem test_decode_rsv : decode ⟨0b00001000#8, 0#32⟩ = .error (.illegalCommand 0x08#8) := by decide
theorem test_decode_operand_above_cmd :
    decodeTableWord 40 0x3F00000001 = some (.f32ToSrgb8 0x3F000000#32) := by decide
theorem test_decode_bits_above_nbits : decodeTableWord 8 0x3F00000001 = some (.f32ToSrgb8 0) := by decide

/-! ## Arithmetic: corner vectors of 95_test_vectors.md -/

/-- RESULT after one request from reset. -/
def resultOf (i : Instr) : Option Word :=
  match exec i State.reset with
  | .next s => some s.result
  | .fault _ => none
  | .refused _ => none

/-- The rule's own example (R87): u = 128 on the power branch, with operand bits above it. -/
theorem test_srgb8ToF32_power : resultOf (.srgb8ToF32 0xFFFFFF80#32) = some 0x3E5D0A8B#32 := by decide +kernel
/-- The last linear input, u = 10. -/
theorem test_srgb8ToF32_linear : resultOf (.srgb8ToF32 0x0000000A#32) = some 0x3B46EB61#32 := by decide +kernel
/-- The tie c * 255 = 127.5, which rounds up. -/
theorem test_f32ToSrgb8_tie : resultOf (.f32ToSrgb8 0x3E5B2D9A#32) = some 128#32 := by decide +kernel
/-- A signalling NaN. -/
theorem test_f32ToSrgb8_nan : resultOf (.f32ToSrgb8 0x7F800001#32) = some 0#32 := by decide +kernel
/-- The rule's example (R111), 127/255. -/
theorem test_unorm8ToF32_example : resultOf (.unorm8ToF32 0x0000007F#32) = some 0x3EFEFEFF#32 := by decide +kernel
/-- Bit 8 is ignored. -/
theorem test_unorm8ToF32_upper : resultOf (.unorm8ToF32 0x00000100#32) = some 0#32 := by decide +kernel
/-- The single rounding carries a value below 129 up to it (R112, 90_conflicts.md C1). -/
theorem test_f32ToUnorm8_fused : resultOf (.f32ToUnorm8 0x3F010101#32) = some 129#32 := by decide +kernel
/-- 0.5 rounds up to 128 (vector S7). -/
theorem test_f32ToUnorm8_half : resultOf (.f32ToUnorm8 0x3F000000#32) = some 128#32 := by decide +kernel
/-- 511/65535: a 16-bit operand uses bit 8. -/
theorem test_unorm16ToF32_bit8 : resultOf (.unorm16ToF32 0x000001FF#32) = some 0x3BFF8100#32 := by decide +kernel
/-- Bits 31:16 are ignored. -/
theorem test_unorm16ToF32_upper : resultOf (.unorm16ToF32 0x12345678#32) = some 0x3EACF0AD#32 := by decide +kernel
/-- 0.5 truncates to 32767 (vector S12). -/
theorem test_f32ToUnorm16_half : resultOf (.f32ToUnorm16 0x3F000000#32) = some 32767#32 := by decide +kernel
/-- The product is rounded before it is truncated. -/
theorem test_f32ToUnorm16_rounded : resultOf (.f32ToUnorm16 0x37800080#32) = some 1#32 := by decide +kernel
/-- Program P4's literal -1.0f is the pattern 0xBF800000. -/
theorem test_decimal_literal : asmOperand (.dec ⟨true, 10, 1⟩) = .word 0xBF800000#32 := by decide +kernel
/-- Smallest subnormal times S_LIN is not flushed: c = 0x0000000D (95_test_vectors.md section 3). -/
theorem test_subnormal_kept : bits32 (compress Config.srgbPow (val 0x00000001#32)) = 0x0000000D#32 := by decide +kernel

/-- Text of R70: a comment, a blank line, an illegal command, a pseudo-instruction. -/
theorem test_assembly_text :
    assembleText "F32_TO_UNORM8 0x3F000000 ; k = 0\n\n.req 0x0B, 0x80\nSRGB8_TO_UNORM16 0x80" =
      some [.request 0x03#8 (.word 0x3F000000#32), .request 0x0B#8 (.word 0x80#32),
        .request 0x00#8 (.word 0x80#32), .request 0x05#8 .lastResult] := by decide +kernel
/-- `@R` on the first line is refused (R70), in a pseudo-instruction too (R71). -/
theorem test_assembly_text_first_line : assembleText "F32_TO_SRGB8 @R" = none ∧
    assembleText "SRGB8_TO_UNORM8 @R" = none := by decide +kernel

/-! ## State vectors V1 to V10 (95_test_vectors.md section 6), one step each -/

/-- A field of the state after one step. -/
def afterStep {α : Type} (s : State) (f : State → α) : Option α :=
  match step s with
  | .next t => some (f t)
  | .fault _ => none
  | .refused _ => none

/-- The state after V3: an illegal command has been answered. -/
def afterV3 : State :=
  { State.reset with status := 1, faultMark := [.illegalCommand 0 0x06#8], index := 1, responses := [⟨0, true⟩] }

theorem test_v1_v10_reset_keeps_the_mark :
    afterStep { afterV3 with pending := [.assertReset] } (fun t => (t.result, t.status, t.faultMark)) =
      some (0#32, 0#8, [.illegalCommand 0 0x06#8]) := by decide
theorem test_v3_fmt_reserved :
    afterStep (startRun [.request 0x06#8 (.word 0x3F000000#32)]) (fun t => (t.result, t.status, t.faultMark)) =
      some (0#32, 1#8, [.illegalCommand 0 0x06#8]) := by decide
theorem test_v5_rsv :
    afterStep (startRun [.request 0x08#8 (.word 0x80#32)]) (fun t => (t.result, t.status)) =
      some (0#32, 1#8) := by decide
theorem test_v8_recovery :
    afterStep { afterV3 with pending := [.request 0x02#8 (.word 0xFF#32)] }
      (fun t => (t.result, t.status, t.faultMark)) =
      some (0x3F800000#32, 0#8, [.illegalCommand 0 0x06#8]) := by decide +kernel
theorem test_v9_read :
    afterStep { State.reset with result := 0x3F800000#32, pending := [.readResult] } (fun t => (t.result, t.reads)) =
      some (0x3F800000#32, [.result 0x3F800000#32]) := by decide
theorem test_request_during_reset :
    afterStep { State.reset with inReset := true, pending := [.request 0x02#8 (.word 0xFF#32)] }
      (fun t => (t.responses, t.index)) = some ([], 0) := by decide
theorem test_reset_discards_in_flight :
    afterStep { State.reset with inFlight := some ⟨0x02#8, 0xFF#32⟩, pending := [.assertReset] }
      (fun t => (t.responses, t.inFlight)) = some ([], none) := by decide
theorem test_fetch_word_runs :
    afterStep (State.reset.withFetchWord 8 0x02) (fun t => (t.result, t.status, t.index)) =
      some (0#32, 0#8, 1) := by decide +kernel

/-! ## Witnesses: states and operands that meet each statement's hypotheses -/

/-- A ready block with one stream in front of it. -/
def ready (ms : List HostMove) : State := startRun ms

theorem witness_ResetLeavesTheListedValues : (ready [.assertReset]).pending = .assertReset :: [] := rfl
theorem witness_ReadsBeforeAnyResponseReturnZero :
    (∃ t, run 1 (ready [.readStatus]) = .next t ∧ t.responses = []) ∧
    ({ afterV3 with pending := [.assertReset, .readResult] }).pending = .assertReset :: [.readResult] ∧
    ∃ t, run 2 { afterV3 with pending := [.assertReset, .readResult] } = .next t ∧
      t.responses.length = afterV3.responses.length := ⟨⟨_, rfl, rfl⟩, rfl, _, rfl, rfl⟩
theorem witness_ReadsHaveNoSideEffect :
    (ready [.readResult]).pending = .readResult :: [] ∧ (ready [.readStatus]).pending = .readStatus :: [] ∧
    ∃ t, step (ready [.request 0x06#8 (.word 0)]) = .next t ∧ t.status ≠ (ready []).status :=
  ⟨rfl, rfl, _, rfl, by decide⟩
theorem witness_RegistersHoldWhenTheStreamIsDone : afterV3.inFlight = none ∧ afterV3.pending = [] := ⟨rfl, rfl⟩
/-- A block whose reset input is asserted, with one stream in front of it. -/
def duringReset (ms : List HostMove) : State := { startRun ms with inReset := true }

theorem witness_ResetDiscardsRequests :
    ({ ready [.assertReset] with inFlight := some ⟨0#8, 1#32⟩ }).pending = .assertReset :: [] ∧
    ((duringReset [.request 0#8 (.word 1)]).inReset = true ∧ (duringReset [.request 0#8 (.word 1)]).inFlight = none ∧
      (duringReset [.request 0#8 (.word 1)]).pending = .request 0#8 (.word 1) :: []) ∧
    (duringReset [.launch 0#8 (.word 1)]).pending = .launch 0#8 (.word 1) :: [] ∧
    ((duringReset [.releaseReset]).inFlight = none ∧ (duringReset [.releaseReset]).pending = .releaseReset :: []) :=
  ⟨rfl, ⟨rfl, rfl, rfl⟩, rfl, rfl, rfl⟩
theorem witness_EncodeOfDecodeIsTheRequest : decode ⟨0x05#8, 0xFFFFFFFF#32⟩ = .ok (.f32ToUnorm16 0xFFFFFFFF#32) := by
  decide
theorem witness_IllegalBytesGetTheIllegalResponse :
    (0x06#8).extractLsb' 1 2 = 0b11#2 ∧ (0x07#8).extractLsb' 1 2 = 0b11#2 ∧
    (0x08#8).extractLsb' 3 5 ≠ 0b00000#5 ∧ (0xFF#8).extractLsb' 3 5 ≠ 0b00000#5 := by decide
theorem witness_StepRunsTheDecodedInstruction :
    (Ready (ready [.request 0x01#8 .lastResult]) ∧
      decode ⟨0x01#8, operandWord (ready [.request 0x01#8 .lastResult]) .lastResult⟩ = .ok (.f32ToSrgb8 0)) ∧
    (({ ready [] with inFlight := some ⟨0x03#8, 7#32⟩ }).inFlight = some ⟨0x03#8, 7#32⟩ ∧
      decode ⟨0x03#8, 7#32⟩ = .ok (.f32ToUnorm8 7#32) ∧ (ready []).pending = []) ∧
    (isRead (.request 0#8 (.word 0)) = false ∧ HostMove.request 0#8 (.word 0) ≠ .assertReset) ∧
    decodeTableWord 8 0x04 = some (.unorm16ToF32 0) :=
  ⟨⟨⟨rfl, rfl⟩, by decide⟩, ⟨rfl, by decide, rfl⟩, by decide, by decide⟩
theorem witness_StepWritesRespond :
    Ready (ready [.request 0x00#8 (.word 5)]) ∧
      (ready [.request 0x00#8 (.word 5)]).pending = .request 0x00#8 (.word 5) :: [] := ⟨⟨rfl, rfl⟩, rfl⟩
theorem witness_EveryAcceptedRequestIsAnswered :
    ({ ready [.readResult, .assertReset] with inFlight := some ⟨0x00#8, 5#32⟩ }).inFlight = some ⟨0x00#8, 5#32⟩ := rfl
theorem witness_RequestInFlightIsAnsweredAfterReads :
    Ready (ready [.launch 0x00#8 (.word 5), .readResult, .readStatus]) ∧
      [HostMove.readResult, .readStatus].all isRead = true ∧
      (ready [.launch 0x00#8 (.word 5), .readResult, .readStatus]).pending =
        .launch 0x00#8 (.word 5) :: [.readResult, .readStatus] ∧
    (Ready { afterV3 with pending := [.launch 0x06#8 .lastResult] } ∧
      ({ afterV3 with pending := [.launch 0x06#8 .lastResult] }).pending = .launch 0x06#8 .lastResult :: [] ∧
      (respond ⟨0x06#8, operandWord afterV3 .lastResult⟩).ill = true) :=
  ⟨⟨rfl, rfl⟩, rfl, rfl, ⟨rfl, rfl⟩, rfl, by decide⟩
theorem witness_StreamIsAnsweredInOrder :
    [Request.mk 0x06#8 0, Request.mk 0x02#8 1].getLast? = some ⟨0x02#8, 1⟩ ∧
    expectedMark [⟨0x02#8, 1⟩, ⟨0x06#8, 0⟩, ⟨0xFF#8, 0⟩] = [.illegalCommand 1 0x06#8, .illegalCommand 2 0xFF#8] := by
  decide
theorem witness_IllegalCommandResponse :
    Ready (ready [.request 0x06#8 (.word 0), .request 0x02#8 (.word 1)]) ∧
      (ready [.request 0x06#8 (.word 0), .request 0x02#8 (.word 1)]).pending =
        .request 0x06#8 (.word 0) :: .request 0x02#8 (.word 1) :: [] ∧
      cmdLegal 0x06#8 = false ∧ cmdLegal 0x02#8 = true := ⟨⟨rfl, rfl⟩, rfl, by decide, by decide⟩
theorem witness_FaultMarkRecordsEveryIllegalRequest :
    (∃ t, step (ready [.request 0xFF#8 (.word 0)]) = .next t) ∧ Ready (ready [.request 0xFF#8 (.word 0)]) ∧
      (ready [.request 0xFF#8 (.word 0)]).pending = .request 0xFF#8 (.word 0) :: [] ∧ cmdLegal 0xFF#8 = false ∧
    (({ afterV3 with inFlight := some ⟨0x08#8, 7#32⟩, pending := [.releaseReset] }).inFlight = some ⟨0x08#8, 7#32⟩ ∧
      cmdLegal 0x08#8 = false ∧ isRead .releaseReset = false ∧ HostMove.releaseReset ≠ .assertReset ∧
      ({ afterV3 with inFlight := some ⟨0x08#8, 7#32⟩ }).pending = []) ∧
    ∃ t, run 3 (ready [.request 0xFF#8 (.word 0)]) = .next t :=
  ⟨⟨_, rfl⟩, ⟨rfl, rfl⟩, rfl, by decide, ⟨rfl, by decide, rfl, by decide, rfl⟩, _, rfl⟩
/-- The invariant's hypotheses are met away from reset too: with a request answered illegally, and one in flight. -/
theorem witness_EveryStepKeepsTheInvariant :
    Inv { afterV3 with inFlight := some ⟨0x02#8, 1#32⟩ } ∧
      ∃ t, step { afterV3 with inFlight := some ⟨0x02#8, 1#32⟩ } = .next t :=
  ⟨{ reserved_zero := by decide
     index_counts := rfl
     holds_last := .inr rfl
     ill_result_zero := by decide
     mark_matches := by decide
     mark_illegal := by
       intro k cmd h
       simp only [afterV3, List.mem_singleton, Fault.illegalCommand.injEq] at h
       rw [h.2]
       decide
     reset_holds := by decide }, _, rfl⟩
theorem witness_RoundingIsToNearestEven :
    |(-1 / 3 : ℚ)| < 2 ^ 128 - 2 ^ 103 ∧ |(2 ^ 128 - 2 ^ 103 - 1 : ℚ)| < 2 ^ 128 - 2 ^ 103 := by
  constructor <;> norm_num [abs_of_nonneg, abs_of_nonpos]
theorem witness_RoundedPatternIsUnique : IsRNE32 0 0x00000000#32 := by
  have h0 : val 0x00000000#32 = 0 := by decide +kernel
  refine ⟨by decide, by decide, fun w _ => ⟨by simp [h0], fun h hne => ?_⟩⟩
  simp only [h0, Rat.cast_zero, sub_zero, abs_zero] at h
  have hw : val w = 0 := by exact_mod_cast abs_eq_zero.1 h.symm
  exact absurd (hw.trans h0.symm) hne
theorem witness_Binary32ValuesAreKept :
    isFinite 0x80000000#32 = true ∧ isFinite 0x7F7FFFFF#32 = true ∧ (0x7F7FFFFF#32 : Word) ≠ 0x80000000#32 := by decide
theorem witness_PowerIsCorrectlyRounded :
    (0 : ℚ) < 1 / 2 ∧ (0 : ℚ) < 2 ∧ (((1 / 2 : ℚ) : ℝ) ^ ((2 : ℚ) : ℝ)) < 2 ^ 128 - 2 ^ 103 := by
  refine ⟨by norm_num, by norm_num, ?_⟩
  have h : (((1 / 2 : ℚ) : ℝ) ^ ((2 : ℚ) : ℝ)) ≤ 1 :=
    Real.rpow_le_one (by norm_num) (by norm_num) (by norm_num)
  exact h.trans_lt (by norm_num)
theorem witness_ClampPolicy :
    isNaN 0x7F800001#32 = true ∧ (isFinite 0x80000001#32 = true ∧ val 0x80000001#32 < 0) ∧
    (isFinite 0x3F800001#32 = true ∧ 1 < val 0x3F800001#32) ∧
    (isFinite 0x3F800000#32 = true ∧ 0 ≤ val 0x3F800000#32 ∧ val 0x3F800000#32 ≤ 1) ∧
    (isFinite 0x80000000#32 = true ∧ 0 ≤ val 0x80000000#32 ∧ val 0x80000000#32 ≤ 1) ∧
    (0x3F800000#32 < (0x3F800001#32 : Word) ∧ (0x7F800000#32 : Word) ≤ 0x7F800000#32) ∧
    0x80000000#32 ≤ (0x80000000#32 : Word) ∧ (0x3F800000#32 : Word) ≤ 0x3F800000#32 := by decide +kernel
theorem witness_DecodeBranchSelect : (10 : Nat) ≤ 255 ∧ ¬(11 : Nat) ≤ 10 ∧ (255 : Nat) ≤ 255 := by decide
theorem witness_DecodePowerBase : (11 : Nat) ≤ 11 ∧ (255 : Nat) ≤ 255 := by decide
theorem witness_DecodeStrictlyIncreases : (10 : Nat) < 11 ∧ (254 : Nat) < 255 := by decide
theorem witness_EncodeCornerCases :
    isNaN 0x7FFFFFFF#32 = true ∧ 0x80000000#32 ≤ (0xFFFFFFFF#32 : Word) ∧ (0x007FFFFF#32 : Word) < 0x00800000#32 ∧
    0x3F800000#32 ≤ (0x3F800000#32 : Word) ∧ (0x7F800000#32 : Word) ≤ 0x7F800000#32 := by decide
theorem witness_EncodeIsMonotone :
    isNaN 0x3B4D2E1C#32 = false ∧ isNaN 0x7F800000#32 = false ∧ val 0x3B4D2E1C#32 ≤ val 0x7F800000#32 := by
  decide +kernel
theorem witness_SrgbRoundTripIsExact :
    Ready (ready [.request 0x00#8 (.word (BitVec.ofNat 32 255)), .request 0x01#8 .lastResult]) ∧ 255 ≤ 255 ∧
      (ready [.request 0x00#8 (.word (BitVec.ofNat 32 255)), .request 0x01#8 .lastResult]).pending =
        [.request 0x00#8 (.word (BitVec.ofNat 32 255)), .request 0x01#8 .lastResult] :=
  ⟨⟨rfl, rfl⟩, le_refl _, rfl⟩
theorem witness_Unorm8ToF32RoundsTheQuotient : 0 < 1 ∧ 254 < 255 := by decide
theorem witness_F32ToUnorm8RoundsOnce :
    isNaN 0xFFC00000#32 = true ∧ 0x80000000#32 ≤ (0x80000000#32 : Word) ∧
    0x3F800000#32 ≤ (0x7F800000#32 : Word) ∧ (0x7F800000#32 : Word) ≤ 0x7F800000#32 := by decide
theorem witness_F32ToUnorm16TruncatesTheRoundedProduct :
    isNaN 0x7FC00000#32 = true ∧ 0x80000000#32 ≤ (0xFF800000#32 : Word) ∧
    0x3F800000#32 ≤ (0x3F800000#32 : Word) ∧ (0x3F800000#32 : Word) ≤ 0x7F800000#32 := by decide
theorem witness_Unorm8RoundTripIsExact :
    Ready (ready [.request 0x02#8 (.word (BitVec.ofNat 32 255)), .request 0x03#8 .lastResult]) ∧ 255 ≤ 255 ∧
      (ready [.request 0x02#8 (.word (BitVec.ofNat 32 255)), .request 0x03#8 .lastResult]).pending =
        [.request 0x02#8 (.word (BitVec.ofNat 32 255)), .request 0x03#8 .lastResult] :=
  ⟨⟨rfl, rfl⟩, le_refl _, rfl⟩
theorem witness_Unorm16RoundTripIsExact :
    Ready (ready [.request 0x04#8 (.word (BitVec.ofNat 32 65535)), .request 0x05#8 .lastResult]) ∧ 65535 ≤ 65535 ∧
      (ready [.request 0x04#8 (.word (BitVec.ofNat 32 65535)), .request 0x05#8 .lastResult]).pending =
        [.request 0x04#8 (.word (BitVec.ofNat 32 65535)), .request 0x05#8 .lastResult] :=
  ⟨⟨rfl, rfl⟩, le_refl _, rfl⟩
theorem witness_RescalerIsMonotone :
    ((0x1FE#32).extractLsb' 0 8).toNat < ((0x0FF#32).extractLsb' 0 8).toNat ∧
    ((0x10000#32).extractLsb' 0 16).toNat < ((0x0FFFF#32).extractLsb' 0 16).toNat ∧
    clamp01 0x7FC00000#32 ≤ clamp01 0x3F800001#32 := by decide +kernel
theorem witness_FusedAndTwoRoundingQuantiserAgree : (0x3F800000#32 : Word) ≤ 0x3F800000#32 := by decide
theorem witness_UpperOperandBitsAreIgnored :
    (0xFFFFFF80#32).extractLsb' 0 8 = (0x00000080#32).extractLsb' 0 8 ∧
    (0xABCD8000#32).extractLsb' 0 16 = (0x00008000#32).extractLsb' 0 16 := by decide
theorem witness_AssemblerExpandsPseudoInstructions :
    Format.srgb8 ≠ Format.unorm16 ∧ 0xFFFFFFFF < 2 ^ 32 ∧
    Line.command ⟨.unorm8, .intoFloat⟩ (.dec ⟨false, 5, 1⟩) ∈
      [.req 0x06 0, .command ⟨.unorm8, .intoFloat⟩ (.dec ⟨false, 5, 1⟩)] ∧
    Line.pseudo .unorm8 .srgb8 (.dec ⟨false, 5, 1⟩) ∈ [.req 0x06 0, .pseudo .unorm8 .srgb8 (.dec ⟨false, 5, 1⟩)] ∧
    Line.pseudo .unorm8 .unorm8 (.hex 1) ∈ [.req 0x06 0, .pseudo .unorm8 .unorm8 (.hex 1)] := by decide
/-- A pseudo-instruction on a later line may take `@R` (R70, R71). -/
theorem test_assembly_pseudo_on_result :
    assemble [.req 0x06 0, .pseudo .unorm8 .srgb8 .atR] =
      some [.request 0x06#8 (.word 0), .request 0x02#8 .lastResult, .request 0x01#8 .lastResult] := by decide
theorem test_assembly_pseudo_equal_formats :
    assemble [.req 0x06 0, .pseudo .srgb8 .srgb8 (.hex 1)] = none := by decide
theorem witness_PseudoInstructionComposes :
    assemble [.pseudo .srgb8 .unorm16 (.hex 0x80)] =
        some [.request 0x00#8 (.word 0x80#32), .request 0x05#8 .lastResult] ∧
      Ready (ready [.request 0x00#8 (.word 0x80#32), .request 0x05#8 .lastResult]) :=
  ⟨by decide, rfl, rfl⟩
theorem witness_Unorm8ToUnorm16Scales : (255 : Nat) ≤ 255 := le_refl _

end Sys2Proof.Tests
end

section
/-! Patterns as a sign and a magnitude: what `val`, `isFinite` and the order of words read off them (00_scope.md R13). -/

namespace Sys2Proof.Machine

open Sys2Proof

/-- The pattern with the given sign and the magnitude pattern `n < 2^31` (R13). -/
@[irreducible] def pattern (neg : Bool) (n : Nat) : Word := BitVec.ofNat 32 (if neg then 0x80000000 + n else n)

theorem toNat_pattern (neg : Bool) {n : Nat} (hn : n < 0x80000000) :
    (pattern neg n).toNat = if neg then 0x80000000 + n else n := by
  cases neg <;> simp [pattern] <;> omega

/-- Every word is the pattern of its sign and its magnitude. -/
theorem exists_pattern (b : Word) : ∃ neg n, n < 0x80000000 ∧ b = pattern neg n := by
  have hb := b.isLt
  by_cases h : b.toNat < 0x80000000
  · exact ⟨false, b.toNat, h, by simp [pattern]⟩
  · refine ⟨true, b.toNat - 0x80000000, by omega, BitVec.eq_of_toNat_eq ?_⟩
    rw [toNat_pattern true (by omega)]
    simp only [if_true]
    omega

/-- A pattern's value is its magnitude's, with its sign (R13). -/
@[simp] theorem val_pattern (neg : Bool) {n : Nat} (hn : n < 0x80000000) :
    val (pattern neg n) = if neg then -magVal n else magVal n := by
  have hs : signBit (pattern neg n) = neg := by
    rw [signBit, BitVec.getLsbD, toNat_pattern neg hn, Nat.testBit_eq_decide_div_mod_eq]
    cases neg <;> simp <;> omega
  have hm : (pattern neg n).toNat % 0x80000000 = n := by
    rw [toNat_pattern neg hn]
    cases neg <;> simp <;> omega
  rw [val, hs, hm]

/-- A pattern is finite when its magnitude lies below that of the infinities (R13). -/
theorem isFinite_pattern (neg : Bool) {n : Nat} (hn : n < 0x80000000) :
    isFinite (pattern neg n) = true ↔ n < 0x7F800000 := by
  rw [isFinite, expField, toNat_pattern neg hn, Nat.shiftRight_eq_div_pow, bne_iff_ne]
  cases neg <;> simp <;> omega

/-- A pattern is a NaN when its magnitude lies above that of the infinities (R13). -/
theorem isNaN_pattern (neg : Bool) {n : Nat} (hn : n < 0x80000000) :
    isNaN (pattern neg n) = true ↔ 0x7F800000 < n := by
  rw [isNaN, expField, fracField, toNat_pattern neg hn, Nat.shiftRight_eq_div_pow, Bool.and_eq_true,
    beq_iff_eq, bne_iff_ne]
  cases neg <;> simp <;> omega

/-- The fraction's LSB is the parity of the magnitude pattern. -/
theorem lsb_pattern (neg : Bool) {n : Nat} (hn : n < 0x80000000) :
    (pattern neg n).getLsbD 0 = false ↔ n % 2 = 0 := by
  rw [BitVec.getLsbD, toNat_pattern neg hn, Nat.testBit_eq_decide_div_mod_eq]
  cases neg <;> simp
  omega

/-- -0.0 is the negative pattern of magnitude 0. -/
theorem pattern_eq_negZero (neg : Bool) {n : Nat} (hn : n < 0x80000000) :
    pattern neg n = 0x80000000#32 ↔ neg = true ∧ n = 0 := by
  rw [← BitVec.toNat_inj, toNat_pattern neg hn]
  cases neg <;> simp
  omega

/-- A finite pattern is the pattern of a sign and of a magnitude below the infinities'. -/
theorem exists_finite_pattern {b : Word} (hb : isFinite b = true) :
    ∃ neg n, n < 0x7F800000 ∧ b = pattern neg n := by
  obtain ⟨neg, n, hn, rfl⟩ := exists_pattern b
  exact ⟨neg, n, (isFinite_pattern neg hn).1 hb, rfl⟩

theorem magVal_lt_iff {m n : Nat} : magVal m < magVal n ↔ m < n := magVal_strictMono.lt_iff_lt

theorem magVal_pos_iff {n : Nat} : 0 < magVal n ↔ 0 < n := by rw [← magVal_zero, magVal_lt_iff]

/-! Three magnitudes of R13 and R14: 1, the infinities' 2^128, and the greatest finite one below it. -/

theorem magVal_one : magVal 0x3F800000 = 1 := by decide +kernel
theorem magVal_infinity : magVal 0x7F800000 = 2 ^ 128 := by decide +kernel
theorem magVal_greatest : magVal 0x7F7FFFFF = 2 ^ 128 - 2 ^ 104 := by decide +kernel

/-- A finite pattern's value is in the range that R14 rounds. -/
theorem abs_val_lt {b : Word} (hb : isFinite b = true) : |val b| < 2 ^ 128 - 2 ^ 103 := by
  obtain ⟨neg, n, hn, rfl⟩ := exists_finite_pattern hb
  have habs : |val (pattern neg n)| = magVal n := by
    rw [val_pattern neg (by omega)]
    cases neg <;> simp [abs_of_nonneg (magVal_nonneg n)]
  rw [habs]
  calc magVal n ≤ magVal 0x7F7FFFFF := magVal_strictMono.monotone (by omega)
    _ = 2 ^ 128 - 2 ^ 104 := magVal_greatest
    _ < 2 ^ 128 - 2 ^ 103 := by norm_num

/-- Between the values of two patterns with LSB 0 lies the value of a third one. -/
theorem exists_val_between {b c : Word} (hb : isFinite b = true) (hc : isFinite c = true)
    (hb0 : b.getLsbD 0 = false) (hc0 : c.getLsbD 0 = false) (hlt : val b < val c) :
    ∃ w, isFinite w = true ∧ val b < val w ∧ val w < val c := by
  obtain ⟨nb, m, hm, rfl⟩ := exists_finite_pattern hb
  obtain ⟨nc, n, hn, rfl⟩ := exists_finite_pattern hc
  rw [lsb_pattern _ (by omega)] at hb0 hc0
  suffices h : ∃ neg k, k < 0x7F800000 ∧ val (pattern nb m) < val (pattern neg k) ∧
      val (pattern neg k) < val (pattern nc n) by
    obtain ⟨neg, k, hk, h⟩ := h
    exact ⟨pattern neg k, (isFinite_pattern neg (by omega)).2 hk, h⟩
  have hm0 := magVal_nonneg m
  have hn0 := magVal_nonneg n
  cases nb <;> cases nc <;> simp (disch := omega) [magVal_lt_iff] at hlt
  case false.false =>
    refine ⟨false, m + 1, by omega, ?_⟩
    simp (disch := omega) [magVal_lt_iff]
    omega
  case false.true => linarith
  case true.false =>
    rcases Nat.eq_zero_or_pos m with rfl | hpos
    · refine ⟨false, 1, by omega, ?_⟩
      simp (disch := omega) [magVal_lt_iff, magVal_pos_iff] at hlt ⊢
      omega
    · refine ⟨true, 1, by omega, ?_⟩
      have h1 := magVal_pos_iff.2 one_pos
      simp (disch := omega) [magVal_lt_iff]
      exact ⟨by omega, by linarith⟩
  case true.true =>
    refine ⟨true, n + 1, by omega, ?_⟩
    simp (disch := omega) [magVal_lt_iff]
    omega

/-- But for -0.0 a finite pattern is told by its value. -/
theorem val_injective {b c : Word} (hb : isFinite b = true) (hc : isFinite c = true) (hbz : b ≠ 0x80000000#32)
    (hcz : c ≠ 0x80000000#32) (h : val b = val c) : b = c := by
  obtain ⟨nb, m, hm, rfl⟩ := exists_finite_pattern hb
  obtain ⟨nc, n, hn, rfl⟩ := exists_finite_pattern hc
  rw [ne_eq, pattern_eq_negZero _ (by omega)] at hbz hcz
  rw [val_pattern _ (by omega), val_pattern _ (by omega)] at h
  have hm0 := magVal_nonneg m
  have hn0 := magVal_nonneg n
  cases nb <;> cases nc <;> simp only [if_true, Bool.false_eq_true, if_false] at h
  case false.false => rw [magVal_strictMono.injective h]
  case false.true =>
    have := magVal_pos_iff.2 (Nat.pos_of_ne_zero (by simpa using hcz) : 0 < n)
    linarith
  case true.false =>
    have := magVal_pos_iff.2 (Nat.pos_of_ne_zero (by simpa using hbz) : 0 < m)
    linarith
  case true.true => rw [magVal_strictMono.injective (neg_injective h)]

end Sys2Proof.Machine
end

section
/-! Correct rounding as a relation between reals and patterns: it is unique and monotone, and the model's rounding meets it
(00_scope.md R14). -/

namespace Sys2Proof.Machine

open Sys2Proof

/-- The greatest finite magnitude rounds up only from its midpoint to 2^128 on. -/
theorem midpoint_greatest : midpoint 0x7F7FFFFF = 2 ^ 128 - 2 ^ 103 := by
  rw [midpoint, magVal_greatest, magVal_infinity]
  norm_num

/-- In range the real lies between the magnitude found and its successor. -/
theorem floorPattern_bracket {x : ℝ} {cmp : ℚ → Ordering} (h : Presents x cmp) (hx : 0 ≤ x)
    (hlt : x < 2 ^ 128 - 2 ^ 103) :
    (magVal (floorPattern cmp) : ℝ) ≤ x ∧ x < magVal (floorPattern cmp + 1) := by
  obtain ⟨-, hlo, hhi | htop⟩ := floorPattern_spec h hx
  · exact ⟨hlo, hhi⟩
  · refine ⟨hlo, ?_⟩
    rw [htop, magVal_infinity]
    push_cast
    linarith [pow_pos (two_pos (α := ℝ)) 103]

/-- In range the magnitude pattern given is finite. -/
theorem nearestPattern_lt {x : ℝ} {cmp : ℚ → Ordering} (h : Presents x cmp) (hx : 0 ≤ x)
    (hlt : x < 2 ^ 128 - 2 ^ 103) : nearestPattern cmp < 0x7F800000 := by
  obtain ⟨hf, -, -⟩ := floorPattern_spec h hx
  have top : floorPattern cmp = 0x7F7FFFFF → x < midpoint (floorPattern cmp) := fun hfp => by
    rw [hfp, midpoint_greatest]
    exact_mod_cast hlt
  rcases nearestPattern_cases h with ⟨-, hn⟩ | ⟨hgt, hn⟩ | ⟨heq, -, hn⟩
  · omega
  · have : floorPattern cmp ≠ 0x7F7FFFFF := fun hfp => absurd (top hfp) hgt.not_gt
    omega
  · have : floorPattern cmp ≠ 0x7F7FFFFF := fun hfp => absurd heq (top hfp).ne
    omega

/-- The distance of a magnitude from a real between two neighbouring ones: it lies below the one or above the other. -/
theorem magVal_dist_cases {x : ℝ} {f : Nat} (hlo : (magVal f : ℝ) ≤ x) (hhi : x < magVal (f + 1)) (m : Nat) :
    ((magVal m : ℝ) ≤ magVal f ∧ |(magVal m : ℝ) - x| = x - magVal m) ∨
    ((magVal (f + 1) : ℝ) ≤ magVal m ∧ |(magVal m : ℝ) - x| = magVal m - x) := by
  have mono {i j : Nat} (hij : i ≤ j) : (magVal i : ℝ) ≤ magVal j := by
    exact_mod_cast magVal_strictMono.monotone hij
  rcases Nat.lt_or_ge f m with hfm | hmf
  · exact .inr ⟨mono hfm, abs_of_nonneg (by linarith [mono (Nat.succ_le_of_lt hfm)])⟩
  · exact .inl ⟨mono hmf, by rw [abs_of_nonpos (by linarith [mono hmf])]; ring⟩

/-- No magnitude is nearer than the one given, and at a tie with another one its pattern is even. -/
theorem nearestPattern_nearest {x : ℝ} {cmp : ℚ → Ordering} (h : Presents x cmp) (hx : 0 ≤ x)
    (hlt : x < 2 ^ 128 - 2 ^ 103) (m : Nat) :
    |(magVal (nearestPattern cmp) : ℝ) - x| ≤ |(magVal m : ℝ) - x| ∧
    (|(magVal (nearestPattern cmp) : ℝ) - x| = |(magVal m : ℝ) - x| →
      (magVal m : ℝ) ≠ magVal (nearestPattern cmp) → nearestPattern cmp % 2 = 0) := by
  obtain ⟨hlo, hhi⟩ := floorPattern_bracket h hx hlt
  have hmid : (midpoint (floorPattern cmp) : ℝ) =
      ((magVal (floorPattern cmp) : ℝ) + magVal (floorPattern cmp + 1)) / 2 := by
    rw [midpoint]; push_cast; rfl
  have hf : |(magVal (floorPattern cmp) : ℝ) - x| = x - magVal (floorPattern cmp) := by
    rw [abs_of_nonpos (by linarith)]; ring
  have hs : |(magVal (floorPattern cmp + 1) : ℝ) - x| = magVal (floorPattern cmp + 1) - x :=
    abs_of_nonneg (by linarith)
  have hm := magVal_dist_cases hlo hhi m
  rcases nearestPattern_cases h with ⟨hx', hn⟩ | ⟨hx', hn⟩ | ⟨hx', heven, hn⟩
  · rw [hn, hf]
    rcases hm with ⟨hle, hm⟩ | ⟨hge, hm⟩ <;> rw [hm]
    · exact ⟨by linarith, fun htie hne => absurd (by linarith) hne⟩
    · exact ⟨by linarith, fun htie => by linarith⟩
  · rw [hn, hs]
    rcases hm with ⟨hle, hm⟩ | ⟨hge, hm⟩ <;> rw [hm]
    · exact ⟨by linarith, fun htie => by linarith⟩
    · exact ⟨by linarith, fun htie hne => absurd (by linarith) hne⟩
  · refine ⟨?_, fun _ _ => heven⟩
    have hdist : |(magVal (nearestPattern cmp) : ℝ) - x| = x - magVal (floorPattern cmp) := by
      rcases hn with hn | hn <;> rw [hn]
      · exact hf
      · linarith
    rw [hdist]
    rcases hm with ⟨hle, hm⟩ | ⟨hge, hm⟩ <;> linarith

end Sys2Proof.Machine

namespace Sys2Proof

open Sys2Proof.Machine

/-- The rounding of a presented real from 0 up is its correctly rounded pattern. -/
theorem isRNE32_nearestPattern {x : ℝ} {cmp : ℚ → Ordering} (h : Presents x cmp) (hx : 0 ≤ x)
    (hlt : x < 2 ^ 128 - 2 ^ 103) : IsRNE32 x (pattern false (nearestPattern cmp)) := by
  have hn := nearestPattern_lt h hx hlt
  have hn' : nearestPattern cmp < 0x80000000 := by omega
  refine ⟨(isFinite_pattern false hn').2 hn, by simp [pattern_eq_negZero false hn'], fun w hw => ?_⟩
  obtain ⟨neg, m, hm, rfl⟩ := exists_finite_pattern hw
  have hm' : m < 0x80000000 := by omega
  rw [val_pattern false hn', val_pattern neg hm', lsb_pattern false hn', if_neg Bool.false_ne_true]
  cases neg with
  | false =>
    obtain ⟨hle, htie⟩ := nearestPattern_nearest h hx hlt m
    simp only [Bool.false_eq_true, if_false]
    exact ⟨hle, fun he hne => htie he (by exact_mod_cast hne)⟩
  | true =>
    obtain ⟨hle, htie⟩ := nearestPattern_nearest h hx hlt 0
    have hm0 : (0 : ℝ) ≤ magVal m := by exact_mod_cast magVal_nonneg m
    rw [magVal_zero, Rat.cast_zero, zero_sub, abs_neg, abs_of_nonneg hx] at hle htie
    have hneg : |((-magVal m : ℚ) : ℝ) - x| = magVal m + x := by
      push_cast
      rw [abs_of_nonpos (by linarith)]; ring
    rw [if_pos rfl, hneg]
    refine ⟨by linarith, fun he hne => htie (by linarith) fun h0 => hne ?_⟩
    have hmz : magVal m = 0 := by exact_mod_cast (by linarith : (magVal m : ℝ) = 0)
    rw [hmz, neg_zero]
    exact_mod_cast h0

/-- Rounding to nearest even is symmetric in the sign, but that zero has the one pattern +0.0. -/
theorem isRNE32_neg {x : ℝ} {n : Nat} (hn : n < 0x7F800000) (h : IsRNE32 x (pattern false n)) :
    IsRNE32 (-x) (pattern (n != 0) n) := by
  obtain ⟨-, -, hnear⟩ := h
  have hn' : n < 0x80000000 := by omega
  have hv : val (pattern (n != 0) n) = -val (pattern false n) := by
    rw [val_pattern _ hn', val_pattern _ hn']
    cases n <;> simp
  have flip (u v : ℚ) (huv : u = -v) : |(u : ℝ) - -x| = |(v : ℝ) - x| := by
    rw [huv, ← abs_neg]; push_cast; congr 1; ring
  refine ⟨(isFinite_pattern _ hn').2 hn, by simp [pattern_eq_negZero _ hn'], fun w hw => ?_⟩
  obtain ⟨w', hw', hvw⟩ : ∃ w', isFinite w' = true ∧ val w = -val w' := by
    obtain ⟨neg, m, hm, rfl⟩ := exists_finite_pattern hw
    have hm' : m < 0x80000000 := by omega
    refine ⟨pattern (!neg) m, (isFinite_pattern _ hm').2 hm, ?_⟩
    rw [val_pattern _ hm', val_pattern _ hm']
    cases neg <;> simp
  obtain ⟨hle, htie⟩ := hnear w' hw'
  rw [flip _ _ hv, flip _ _ hvw, hv, hvw, lsb_pattern _ hn', ← lsb_pattern false hn']
  exact ⟨hle, fun he hne => htie he fun heq => hne (by rw [heq])⟩

/-- Of two reals the greater one is as near to `x` as the other exactly when `x` is not below their midpoint. -/
theorem abs_sub_right_le_iff {a b x : ℝ} (h : a < b) : |b - x| ≤ |a - x| ↔ (a + b) / 2 ≤ x := by
  rw [← sq_le_sq]
  constructor <;> intro h' <;> nlinarith

theorem abs_sub_left_le_iff {a b x : ℝ} (h : a < b) : |a - x| ≤ |b - x| ↔ x ≤ (a + b) / 2 := by
  rw [← sq_le_sq]
  constructor <;> intro h' <;> nlinarith

/-- Two correctly rounded patterns of one real have the same value: at the midpoint of two even patterns a third value is
nearer. -/
theorem IsRNE32.val_le {x : ℝ} {b c : Word} (hb : IsRNE32 x b) (hc : IsRNE32 x c) : val b ≤ val c := by
  obtain ⟨hbf, -, hbn⟩ := hb
  obtain ⟨hcf, -, hcn⟩ := hc
  by_contra hle
  have hlt : val c < val b := not_le.1 hle
  have htie := le_antisymm (hbn c hcf).1 (hcn b hbf).1
  obtain ⟨w, hw, hcw, hwb⟩ :=
    exists_val_between hcf hbf ((hcn b hbf).2 htie.symm hlt.ne') ((hbn c hcf).2 htie hlt.ne) hlt
  have hcw : (val c : ℝ) < val w := by exact_mod_cast hcw
  have hwb : (val w : ℝ) < val b := by exact_mod_cast hwb
  have := (abs_sub_left_le_iff hcw).1 (hcn w hw).1
  have := (abs_sub_right_le_iff hwb).1 (hbn w hw).1
  linarith

/-- Settles O24: the two patterns have one value, and a value has one pattern but for -0.0. -/
theorem roundedPatternIsUnique : Obligations.RoundedPatternIsUnique := by
  intro x b c hb hc
  exact val_injective hb.1 hc.1 hb.2.1 hc.2.1 (le_antisymm (hb.val_le hc) (hc.val_le hb))

/-- Correct rounding keeps the order of reals. -/
theorem IsRNE32.mono {x y : ℝ} {b c : Word} (hb : IsRNE32 x b) (hc : IsRNE32 y c) (hxy : x ≤ y) :
    val b ≤ val c := by
  have ⟨hbf, _, hbn⟩ := hb
  have ⟨hcf, _, hcn⟩ := hc
  by_contra hle
  have hlt : (val c : ℝ) < val b := by exact_mod_cast not_le.1 hle
  have hx := (abs_sub_right_le_iff hlt).1 (hbn c hcf).1
  have hy := (abs_sub_left_le_iff hlt).1 (hcn b hbf).1
  obtain rfl : x = y := by linarith
  exact hle (hb.val_le hc)

/-- A finite pattern is the rounding of its own value, but for -0.0. -/
theorem isRNE32_val {b : Word} (hb : isFinite b = true) (hbz : b ≠ 0x80000000#32) : IsRNE32 (val b : ℝ) b := by
  refine ⟨hb, hbz, fun w _ => ⟨by simp, fun h hne => absurd ?_ hne⟩⟩
  rw [sub_self, abs_zero, eq_comm, abs_eq_zero, sub_eq_zero] at h
  exact_mod_cast h

/-- The rounding of a rational from 0 up. -/
theorem rounding_of_nonneg {x : ℚ} (h0 : 0 ≤ x) (hx : |x| < 2 ^ 128 - 2 ^ 103) :
    nearestPattern (compareTo x) < 0x7F800000 ∧ IsRNE32 (x : ℝ) (pattern false (nearestPattern (compareTo x))) := by
  have h0' : (0 : ℝ) ≤ x := by exact_mod_cast h0
  have hx' : (x : ℝ) < 2 ^ 128 - 2 ^ 103 := by exact_mod_cast (le_abs_self x).trans_lt hx
  exact ⟨nearestPattern_lt (compareTo_presents x) h0' hx', isRNE32_nearestPattern (compareTo_presents x) h0' hx'⟩

/-- Settles O23, by the sign of the rational. -/
theorem roundingIsToNearestEven : Obligations.RoundingIsToNearestEven := by
  intro x hx
  rcases lt_or_ge x 0 with hneg | hpos
  · obtain ⟨hn, hr⟩ := rounding_of_nonneg (neg_nonneg.2 hneg.le) (by rwa [abs_neg])
    have hb : bits32 x = pattern (nearestPattern (compareTo (-x)) != 0) (nearestPattern (compareTo (-x))) := by
      rw [bits32, if_pos hneg]
      cases nearestPattern (compareTo (-x)) <;> simp [pattern]
    have hr' := isRNE32_neg hn hr
    push_cast at hr'
    rw [neg_neg] at hr'
    refine ⟨hb ▸ hr', ?_⟩
    rw [hb, val_pattern _ (hn.trans (by norm_num)), rne32, if_pos hneg]
    cases nearestPattern (compareTo (-x)) <;> simp
  · obtain ⟨hn, hr⟩ := rounding_of_nonneg hpos hx
    have hb : bits32 x = pattern false (nearestPattern (compareTo x)) := by
      rw [bits32, if_neg hpos.not_gt]; simp [pattern]
    refine ⟨hb ▸ hr, ?_⟩
    rw [hb, val_pattern _ (hn.trans (by norm_num)), rne32, if_neg hpos.not_gt, if_neg Bool.false_ne_true]

/-- Settles O25: a finite pattern is its value's correctly rounded pattern, and that one is unique. -/
theorem binary32ValuesAreKept : Obligations.Binary32ValuesAreKept := by
  intro b hb
  obtain ⟨hr, hv⟩ := roundingIsToNearestEven (val b) (abs_val_lt hb)
  have hbits (hbz : b ≠ 0x80000000#32) : bits32 (val b) = b :=
    roundedPatternIsUnique _ _ _ hr (isRNE32_val hb hbz)
  refine ⟨?_, hbits⟩
  by_cases hbz : b = 0x80000000#32
  · subst hbz; decide +kernel
  · rw [← hv, hbits hbz]

end Sys2Proof
end

section
/-! The power primitive and the clamp (00_scope.md R14, R16). -/

namespace Sys2Proof

open Sys2Proof.Machine

/-! 0 and 1 are the values of the words +0.0 and 1.0, and round to them. -/

@[simp] theorem val_zero : val 0x00000000#32 = 0 := by decide +kernel
@[simp] theorem val_one : val 0x3F800000#32 = 1 := by decide +kernel

theorem isRNE32_zero : IsRNE32 0 0x00000000#32 := by
  simpa using isRNE32_val (b := 0x00000000#32) (by decide) (by decide)

theorem isRNE32_one : IsRNE32 1 0x3F800000#32 := by
  simpa using isRNE32_val (b := 0x3F800000#32) (by decide) (by decide)

/-- Settles O26: `powCr` rounds a comparison that presents the real power, and 1 has one rounding. -/
theorem powerIsCorrectlyRounded : Obligations.PowerIsCorrectlyRounded := by
  have hpow (x y : ℚ) (hx : 0 < x) (hy : 0 < y) (hlt : ((x : ℝ) ^ (y : ℝ)) < 2 ^ 128 - 2 ^ 103) :
      ∃ b, IsRNE32 ((x : ℝ) ^ (y : ℝ)) b ∧ powCr x y = val b := by
    obtain ⟨cmp, hcmp, hp⟩ := powCr_eq x y hx hy
    have h0 : 0 ≤ (x : ℝ) ^ (y : ℝ) := Real.rpow_nonneg (by exact_mod_cast hx.le) _
    have hn := nearestPattern_lt hcmp h0 hlt
    refine ⟨_, isRNE32_nearestPattern hcmp h0 hlt, ?_⟩
    rw [hp, val_pattern false (hn.trans (by norm_num)), if_neg Bool.false_ne_true]
  refine ⟨hpow, fun y hy => ?_⟩
  have hone : ((1 : ℚ) : ℝ) ^ (y : ℝ) = 1 := by rw [Rat.cast_one, Real.one_rpow]
  obtain ⟨b, hb, hv⟩ := hpow 1 y one_pos hy (by rw [hone]; norm_num)
  rw [hone] at hb
  rw [hv, roundedPatternIsUnique 1 b _ hb isRNE32_one, val_one]

/-! ## The clamp -/

/-- A word without the sign bit has the value of its magnitude. -/
theorem val_of_lt {b : Word} (h : b < 0x80000000#32) : val b = magVal b.toNat := by
  have hb : b = pattern false b.toNat := by simp [pattern]
  rw [BitVec.lt_def] at h
  conv_lhs => rw [hb]
  rw [val_pattern false h, if_neg Bool.false_ne_true]

/-- A word with the sign bit has a value of at most 0. -/
theorem val_nonpos {b : Word} (h : 0x80000000#32 ≤ b) : val b ≤ 0 := by
  obtain ⟨neg, n, hn, rfl⟩ := exists_pattern b
  rw [BitVec.le_def, toNat_pattern neg hn] at h
  cases neg with
  | false =>
    simp at h
    omega
  | true =>
    rw [val_pattern true hn, if_pos rfl]
    exact neg_nonpos.2 (magVal_nonneg n)

/-- The words up to that of +infinity are no NaN. -/
theorem isNaN_of_le {b : Word} (h : b ≤ 0x7F800000#32) : isNaN b = false := by
  obtain ⟨neg, n, hn, rfl⟩ := exists_pattern b
  rw [BitVec.le_def, toNat_pattern neg hn] at h
  rw [← Bool.not_eq_true, isNaN_pattern neg hn]
  cases neg <;> simp at h <;> omega

theorem isNaN_of_isFinite {b : Word} (h : isFinite b = true) : isNaN b = false := by
  rw [isFinite, bne_iff_ne] at h
  simp [isNaN, h]

/-- A NaN clamps to 0 (R16). -/
theorem clamp01_of_isNaN {b : Word} (h : isNaN b = true) : clamp01 b = 0 := by rw [clamp01, if_pos h]

/-- Every other pattern clamps to the number of [0, 1] nearest to its value (R16). -/
theorem clamp01_of_not_isNaN {b : Word} (h : isNaN b = false) : clamp01 b = max 0 (min 1 (val b)) := by
  rw [clamp01, if_neg (by simp [h])]
  split
  next hneg => rw [max_eq_left ((min_le_right _ _).trans hneg.le)]
  next hpos =>
    split
    next hgt => rw [min_eq_left hgt.le, max_eq_right zero_le_one]
    next hle => rw [min_eq_right (not_lt.1 hle), max_eq_right (not_lt.1 hpos)]

/-- The word of 1.0 and those above it, up to +infinity, clamp to 1. -/
theorem clamp01_of_one_le {b : Word} (h1 : 0x3F800000#32 ≤ b) (h2 : b ≤ 0x7F800000#32) : clamp01 b = 1 := by
  have hv : 1 ≤ val b := by
    rw [val_of_lt (Std.lt_of_le_of_lt h2 (by decide)), ← magVal_one]
    exact magVal_strictMono.monotone (BitVec.le_def.1 h1)
  rw [clamp01_of_not_isNaN (isNaN_of_le h2), min_eq_left hv, max_eq_right zero_le_one]

/-- A word with the sign bit, NaN or not, clamps to 0. -/
theorem clamp01_of_sign {b : Word} (h : 0x80000000#32 ≤ b) : clamp01 b = 0 := by
  cases hn : isNaN b with
  | true => exact clamp01_of_isNaN hn
  | false => rw [clamp01_of_not_isNaN hn, max_eq_left ((min_le_right _ _).trans (val_nonpos h))]

/-- The words up to that of 1.0 clamp to their own value. -/
theorem clamp01_of_le_one {b : Word} (h : b ≤ 0x3F800000#32) : clamp01 b = val b := by
  have hv := val_of_lt (Std.lt_of_le_of_lt h (by decide))
  have h1 : val b ≤ 1 := by
    rw [hv, ← magVal_one]
    exact magVal_strictMono.monotone (BitVec.le_def.1 h)
  rw [clamp01_of_not_isNaN (isNaN_of_le (BitVec.le_trans h (by decide))), min_eq_right h1,
    max_eq_right (hv ▸ magVal_nonneg _)]

/-- Settles O27: by value through `clamp01_of_not_isNaN`, by ranges of patterns through the order of their values. -/
theorem clampPolicy : Obligations.ClampPolicy := by
  have finite {b : Word} (hf : isFinite b = true) : clamp01 b = max 0 (min 1 (val b)) :=
    clamp01_of_not_isNaN (isNaN_of_isFinite hf)
  refine ⟨fun b => clamp01_of_isNaN, fun b hf hneg => ?_, fun b hf hgt => ?_, fun b hf h0 h1 => ?_,
    clamp01_of_sign (by decide), clamp01_of_one_le (by decide) (by decide), clamp01_of_sign (by decide),
    fun b h1 h2 => clamp01_of_one_le (BitVec.le_of_lt h1) h2, fun b => clamp01_of_sign, fun b => clamp01_of_le_one⟩
  · rw [finite hf, max_eq_left ((min_le_right _ _).trans hneg.le)]
  · rw [finite hf, min_eq_left hgt.le, max_eq_right zero_le_one]
  · rw [finite hf, min_eq_right h1, max_eq_right h0]

end Sys2Proof
end

section
/-! The range of results: what a rounding, a power and a branch of the codec give for values between 0 and 1
(30_encoding.md R66, 40_srgb_codec.md R86, 41_unorm_rescale.md R117). -/

namespace Sys2Proof

open Sys2Proof.Machine

/-- But for -0.0, a finite pattern whose value lies in [0, 1] is a word up to that of 1.0. -/
theorem le_one_of_val {b : Word} (hb : isFinite b = true) (hbz : b ≠ 0x80000000#32) (h0 : 0 ≤ val b)
    (h1 : val b ≤ 1) : b ≤ 0x3F800000#32 := by
  obtain ⟨neg, n, hn, rfl⟩ := exists_finite_pattern hb
  have hn' : n < 0x80000000 := by omega
  rw [ne_eq, pattern_eq_negZero neg hn'] at hbz
  rw [val_pattern neg hn'] at h0 h1
  rw [BitVec.le_def, toNat_pattern neg hn']
  cases neg with
  | false =>
    rw [if_neg Bool.false_ne_true, ← magVal_one] at h1
    simpa using magVal_strictMono.le_iff_le.1 h1
  | true =>
    have hpos := magVal_pos_iff.2 (Nat.pos_of_ne_zero (by simpa using hbz) : 0 < n)
    rw [if_pos rfl] at h0
    linarith

/-- A real in [0, 1] rounds into [0, 1], and to a word from that of +0.0 to that of 1.0. -/
theorem IsRNE32.unit {x : ℝ} {b : Word} (h : IsRNE32 x b) (h0 : 0 ≤ x) (h1 : x ≤ 1) :
    0 ≤ val b ∧ val b ≤ 1 ∧ b ≤ 0x3F800000#32 := by
  have hlo : 0 ≤ val b := by simpa using isRNE32_zero.mono h h0
  have hhi : val b ≤ 1 := by simpa using h.mono isRNE32_one h1
  exact ⟨hlo, hhi, le_one_of_val h.1 h.2.1 hlo hhi⟩

/-- `rne32` keeps the order of rationals in range. -/
theorem rne32_mono {x y : ℚ} (hx : |x| < 2 ^ 128 - 2 ^ 103) (hy : |y| < 2 ^ 128 - 2 ^ 103) (hxy : x ≤ y) :
    rne32 x ≤ rne32 y := by
  obtain ⟨hrx, hvx⟩ := roundingIsToNearestEven x hx
  obtain ⟨hry, hvy⟩ := roundingIsToNearestEven y hy
  rw [← hvx, ← hvy]
  exact hrx.mono hry (by exact_mod_cast hxy)

/-- A number up to 2 is in the range that R14 rounds. -/
theorem abs_lt_of_le_two {x : ℚ} (h0 : 0 ≤ x) (h2 : x ≤ 2) : |x| < 2 ^ 128 - 2 ^ 103 := by
  rw [abs_of_nonneg h0]
  exact h2.trans_lt (by norm_num)

/-- The pattern of a rational in [0, 1] is one from +0.0 to 1.0. -/
theorem bits32_le_one {x : ℚ} (h0 : 0 ≤ x) (h1 : x ≤ 1) : bits32 x ≤ 0x3F800000#32 := by
  obtain ⟨hr, -⟩ := roundingIsToNearestEven x (abs_lt_of_le_two h0 (by linarith))
  exact (hr.unit (by exact_mod_cast h0) (by exact_mod_cast h1)).2.2

/-- A quotient in [0, 1] is rounded into [0, 1]. -/
theorem div32_unit {a b : ℚ} (ha : 0 ≤ a) (hb : 0 < b) (hab : a ≤ b) : 0 ≤ div32 a b ∧ div32 a b ≤ 1 := by
  have h0 : 0 ≤ a / b := div_nonneg ha hb.le
  have h1 : a / b ≤ 1 := (div_le_one hb).2 hab
  obtain ⟨hr, hv⟩ := roundingIsToNearestEven (a / b) (abs_lt_of_le_two h0 (by linarith))
  obtain ⟨hlo, hhi, -⟩ := hr.unit (by exact_mod_cast h0) (by exact_mod_cast h1)
  rw [div32, ← hv]
  exact ⟨hlo, hhi⟩

/-- A power of a base in (0, 1] is rounded into [0, 1]. -/
theorem powCr_unit {x y : ℚ} (hx : 0 < x) (hx1 : x ≤ 1) (hy : 0 < y) : 0 ≤ powCr x y ∧ powCr x y ≤ 1 := by
  have h0 : 0 ≤ (x : ℝ) ^ (y : ℝ) := Real.rpow_nonneg (by exact_mod_cast hx.le) _
  have h1 : (x : ℝ) ^ (y : ℝ) ≤ 1 :=
    Real.rpow_le_one (by exact_mod_cast hx.le) (by exact_mod_cast hx1) (by exact_mod_cast hy.le)
  obtain ⟨b, hb, hv⟩ := powerIsCorrectlyRounded.1 x y hx hy (h1.trans_lt (by norm_num))
  obtain ⟨hlo, hhi, -⟩ := hb.unit h0 h1
  rw [hv]
  exact ⟨hlo, hhi⟩

/-- The base of decode's power lies in (0, 1]: `add32 1 aOff` is `aScl`, and the base is at least 1/32 (R86). -/
theorem decodeBase_mem {c : ℚ} (h0 : 0 ≤ c) (h1 : c ≤ 1) :
    0 < div32 (add32 c aOff) aScl ∧ div32 (add32 c aOff) aScl ≤ 1 := by
  have hOff : 0 ≤ aOff ∧ aOff ≤ 1 := by decide +kernel
  have hScl : 0 < aScl ∧ aScl ≤ 2 ∧ 1 / 32 * aScl ≤ aOff := by decide +kernel
  have mono {x y : ℚ} (hx : 0 ≤ x) (hxy : x ≤ y) (hy : y ≤ 2) : rne32 x ≤ rne32 y :=
    rne32_mono (abs_lt_of_le_two hx (hxy.trans hy)) (abs_lt_of_le_two (hx.trans hxy) hy) hxy
  have hLow : rne32 (1 / 32) = 1 / 32 := by decide +kernel
  have hlo : aOff ≤ add32 c aOff := by
    have keep : rne32 aOff = aOff := (binary32ValuesAreKept 0x3D6147AE#32 (by decide)).1
    rw [add32]
    conv_lhs => rw [← keep]
    exact mono (by linarith) (by linarith) (by linarith)
  have hhi : add32 c aOff ≤ aScl := by
    have top : rne32 (1 + aOff) = aScl := by decide +kernel
    rw [add32, ← top]
    exact mono (by linarith) (by linarith) (by linarith)
  have hq : 1 / 32 ≤ add32 c aOff / aScl := (le_div_iff₀ hScl.1).2 (by linarith)
  have hq1 : add32 c aOff / aScl ≤ 1 := (div_le_one hScl.1).2 hhi
  have hbase : 1 / 32 ≤ div32 (add32 c aOff) aScl := by
    rw [div32, ← hLow]
    exact mono (by norm_num) hq (by linarith)
  exact ⟨by linarith, (div32_unit (by linarith) hScl.1 hhi).2⟩

/-- Decode gives a value in [0, 1] for every channel (R83 to R88). -/
theorem decodeChannel_unit {u : Nat} (hu : u ≤ 255) :
    0 ≤ decodeChannel Config.srgbPow u ∧ decodeChannel Config.srgbPow u ≤ 1 := by
  obtain ⟨hc0, hc1⟩ : 0 ≤ div32 u 255 ∧ div32 u 255 ≤ 1 :=
    div32_unit (by positivity) (by norm_num) (by exact_mod_cast hu)
  have hLin : 1 ≤ sLin := by decide +kernel
  have hExp : 0 < gExp := by decide +kernel
  rw [decodeChannel]
  split
  · exact div32_unit hc0 (by linarith) (by linarith)
  · obtain ⟨hb0, hb1⟩ := decodeBase_mem hc0 hc1
    exact powCr_unit hb0 hb1 hExp

theorem operandU8_le (opnd : Word) : operandU8 opnd ≤ 255 := Nat.le_of_lt_succ (opnd.extractLsb' 0 8).isLt

theorem operandU16_le (opnd : Word) : operandU16 opnd ≤ 65535 := Nat.le_of_lt_succ (opnd.extractLsb' 0 16).isLt

theorem resultU8_le (n : Nat) : resultU8 n ≤ 0x000000FF#32 := by
  simp [resultU8, BitVec.le_def]
  omega

theorem resultU16_le (n : Nat) : resultU16 n ≤ 0x0000FFFF#32 := by
  simp [resultU16, BitVec.le_def]
  omega

/-- Settles O48: an integer result by its width, a float result as the pattern of a value in [0, 1]. -/
theorem resultsStayInTheirFormat : Obligations.ResultsStayInTheirFormat := by
  intro opnd s
  have hdecode := decodeChannel_unit (operandU8_le opnd)
  have hunorm8 : 0 ≤ div32 (operandU8 opnd) 255 ∧ div32 (operandU8 opnd) 255 ≤ 1 :=
    div32_unit (by positivity) (by norm_num) (by exact_mod_cast operandU8_le opnd)
  have hunorm16 : 0 ≤ div32 (operandU16 opnd) 65535 ∧ div32 (operandU16 opnd) 65535 ≤ 1 :=
    div32_unit (by positivity) (by norm_num) (by exact_mod_cast operandU16_le opnd)
  exact ⟨⟨_, rfl, bits32_le_one hdecode.1 hdecode.2⟩, ⟨_, rfl, resultU8_le _⟩,
    ⟨_, rfl, bits32_le_one hunorm8.1 hunorm8.2⟩, ⟨_, rfl, resultU8_le _⟩,
    ⟨_, rfl, bits32_le_one hunorm16.1 hunorm16.2⟩, ⟨_, rfl, resultU16_le _⟩⟩

end Sys2Proof
end

section
/-! A presented request is answered as `respond` says (30_encoding.md R72), and two of them in a row (R71). -/

namespace Sys2Proof

open Sys2Proof.Machine

/-- `respond` of an illegal request (R67). -/
theorem respond_illegal {r : Request} (h : cmdLegal r.cmd = false) : respond r = ⟨0, true⟩ := by
  have hfields : ∀ c : Byte, cmdLegal c = false → rsvField c ≠ 0b00000#5 ∨ fmtField c = 0b11#2 := by decide
  rw [respond, respondWith, if_pos (hfields r.cmd h)]
  rfl

/-- A legal request runs the command whose result `respond` gives (R64, R72). -/
theorem perform_legal {r : Request} (h : cmdLegal r.cmd = true) (s : State) :
    perform r s = .next (answer s (respond r).result) ∧ (respond r).ill = false := by
  have six : ∀ c : Byte, cmdLegal c = true → c = 0 ∨ c = 1 ∨ c = 2 ∨ c = 3 ∨ c = 4 ∨ c = 5 := by decide
  obtain ⟨cmd, w⟩ := r
  rcases six cmd h with rfl | rfl | rfl | rfl | rfl | rfl <;>
    simp [respond, respondWith, rsvField, fmtField, dirField, perform, decode, exec, execSrgb8ToF32, execF32ToSrgb8,
      execUnorm8ToF32, execF32ToUnorm8, execUnorm16ToF32, execF32ToUnorm16]

/-- Performing a request writes the response that `respond` gives (R72). -/
theorem perform_respond (r : Request) (s : State) :
    ∃ t, perform r s = .next t ∧ Performed r s t (respond r).result (respond r).ill := by
  cases h : cmdLegal r.cmd with
  | true =>
    obtain ⟨hp, hill⟩ := perform_legal h s
    exact ⟨_, hp, by simp [h, hill], by simp [hill], by simp [hill, answer, writeResponse]⟩
  | false =>
    refine ⟨raiseIllegalCommand r.cmd s, ?_, ?_⟩
    · rw [perform, decode_illegal r.cmd h r.opnd]
    · rw [respond_illegal h]
      exact ⟨by simp [h], by simp, rfl⟩

/-- A step of a ready block on a presented request performs it, with its operand filled in, and stays ready (R72). -/
theorem step_request {s : State} {cmd : Byte} {o : HostOperand} {rest : List HostMove} (hs : Ready s)
    (hp : s.pending = .request cmd o :: rest) :
    ∃ t, step s = .next t ∧ Performed ⟨cmd, operandWord s o⟩ (fillOperand { s with pending := rest } o) t
      (respond ⟨cmd, operandWord s o⟩).result (respond ⟨cmd, operandWord s o⟩).ill := by
  obtain ⟨hr, hf⟩ := hs
  have hissued : issued { s with pending := rest } cmd o = ⟨cmd, operandWord s o⟩ := by cases o <;> rfl
  have hstep : step s = perform ⟨cmd, operandWord s o⟩ (fillOperand { s with pending := rest } o) := by
    rw [← hissued, step, advance, hf, hp]
    exact if_neg (by simp [hr])
  rw [hstep]
  exact perform_respond _ _

/-- What the host sees of a ready block that answers a presented request. -/
theorem step_request_responds {s : State} {cmd : Byte} {o : HostOperand} {rest : List HostMove} (hs : Ready s)
    (hp : s.pending = .request cmd o :: rest) :
    ∃ t, step s = .next t ∧ Ready t ∧ t.pending = rest ∧ t.result = (respond ⟨cmd, operandWord s o⟩).result ∧
      t.responses = s.responses ++ [respond ⟨cmd, operandWord s o⟩] := by
  obtain ⟨t, hstep, -, -, rfl⟩ := step_request hs hp
  exact ⟨_, hstep, hs, rfl, rfl, rfl⟩

/-- A run goes on from the state of its first step. -/
theorem run_succ {s t : State} (h : step s = .next t) (n : Nat) : run (n + 1) s = run n t := by
  have hc : core.step s = .next t := h
  change core.run (n + 1) s = core.run n t
  simp only [Host.Core.run, hc]

/-- The assembler's stream for one line with a hexadecimal operand (R70). -/
theorem assemble_pseudo_hex {f g : Format} {n : Nat} {ms : List HostMove}
    (h : assemble [.pseudo f g (.hex n)] = some ms) :
    ms = [.request (Mnemonic.mk f .intoFloat).cmd (.word (BitVec.ofNat 32 n)),
      .request (Mnemonic.mk g .outOfFloat).cmd .lastResult] := by
  rw [assemble] at h
  split at h
  · exact (Option.some.inj h).symm
  · cases h

/-- Settles O50: two presented requests, the second with the RESULT of the first as its operand. -/
theorem pseudoInstructionComposes : Obligations.PseudoInstructionComposes := by
  intro s f g n ms hs hms hp
  rw [assemble_pseudo_hex hms] at hp
  obtain ⟨t, hst, ht, hpt, hres, hresp⟩ := step_request_responds hs hp
  obtain ⟨u, htu, hu, hpu, -, hresp'⟩ := step_request_responds ht hpt
  refine ⟨u, ?_, ⟨hpu, hu.2⟩, ?_⟩
  · rw [run_succ hst, run_succ htu]
    rfl
  · rw [hresp', hresp, List.append_assoc, operandWord, operandWord, hres]
    rfl

end Sys2Proof
end

section
/-! One step, by the host's next move (10_state.md R20, R25, R27, R30, R31; 70_reset_and_hazards.md R160). -/

namespace Sys2Proof

open Sys2Proof.Machine

/-- What the host's read `m` of a register returns in the state `s` (R27). -/
def hostRead (s : State) (m : HostMove) : HostRead :=
  if m = .readResult then .result s.result else .status (statusAsRead s.status)

/-- With nothing in flight a step takes the host's next move. -/
theorem step_takes_move {s : State} {m : HostMove} {rest : List HostMove} (hf : s.inFlight = none)
    (hp : s.pending = m :: rest) : step s = takeMove m { s with pending := rest } := by
  simp only [step, advance, hf, hp]

/-- With nothing in flight and no move left a step keeps the state (R25). -/
theorem step_idle {s : State} (hf : s.inFlight = none) (hp : s.pending = []) : step s = .next s := by
  simp only [step, advance, hf, hp]

/-- An asserted reset takes effect at once, with or without a request in flight (R160). -/
theorem step_assertReset {s : State} {rest : List HostMove} (hp : s.pending = .assertReset :: rest) :
    step s = .next (assertReset { s with pending := rest }) := by
  cases hf : s.inFlight with
  | none => exact step_takes_move hf hp
  | some r => simp only [step, advance, hf, hp]

/-- A host read is taken at once, with or without a request in flight, and only adds to the record of reads (R27). -/
theorem step_read {s : State} {m : HostMove} {rest : List HostMove} (hm : isRead m = true)
    (hp : s.pending = m :: rest) :
    step s = .next { s with pending := rest, reads := s.reads ++ [hostRead s m] } := by
  cases m with
  | readResult =>
    rw [step, advance, hp]
    cases s.inFlight <;> rfl
  | readStatus =>
    rw [step, advance, hp]
    cases s.inFlight <;> rfl
  | request | launch | assertReset | releaseReset => cases hm

/-- The request that the host issues does not depend on the moves that follow. -/
theorem issued_pending (s : State) (rest : List HostMove) (cmd : Byte) (o : HostOperand) :
    issued { s with pending := rest } cmd o = ⟨cmd, operandWord s o⟩ := by
  cases o <;> rfl

/-- A ready block performs a presented request, with its operand filled in (R20). -/
theorem step_presented {s : State} {cmd : Byte} {o : HostOperand} {rest : List HostMove} (hs : Ready s)
    (hp : s.pending = .request cmd o :: rest) :
    step s = perform ⟨cmd, operandWord s o⟩ (fillOperand { s with pending := rest } o) := by
  obtain ⟨hr, hf⟩ := hs
  rw [step_takes_move hf hp, takeMove, if_neg (by simp [hr]), issued_pending]

/-- A ready block leaves a launched request in flight, with its operand filled in (R30). -/
theorem step_launched {s : State} {cmd : Byte} {o : HostOperand} {rest : List HostMove} (hs : Ready s)
    (hp : s.pending = .launch cmd o :: rest) :
    step s = .next
      { fillOperand { s with pending := rest } o with inFlight := some ⟨cmd, operandWord s o⟩ } := by
  obtain ⟨hr, hf⟩ := hs
  rw [step_takes_move hf hp, takeMove, if_neg (by simp [hr]), issued_pending]

/-- A request in flight is performed unless the next move is a read or a reset (R30, 20_memory.md R48). -/
theorem step_inFlight {s : State} {r : Request} (hf : s.inFlight = some r)
    (hnext : ∀ m rest, s.pending = m :: rest → isRead m = false ∧ m ≠ .assertReset) :
    step s = perform r { s with inFlight := none } := by
  cases hp : s.pending with
  | nil => simp only [step, advance, hf, hp, complete]
  | cons m rest =>
    obtain ⟨hread, hreset⟩ := hnext m rest hp
    cases m with
    | readResult | readStatus => cases hread
    | assertReset => exact absurd rfl hreset
    | request | launch | releaseReset => simp only [step, advance, hf, hp, complete]

/-- Performing a request that decodes runs its instruction. -/
theorem perform_of_decode {r : Request} {i : Instr} (h : decode r = .ok i) (s : State) :
    perform r s = exec i s := by
  simp only [perform, h]

/-- An opcode-table word is read by decoding its request. -/
theorem decode_tableRequest {nbits w : Nat} {i : Instr} (h : decodeTableWord nbits w = some i) :
    decode (tableRequest nbits w) = .ok i := by
  rw [decodeTableWord] at h
  split at h
  next j hj => rw [hj, Option.some.inj h]
  next => cases h

/-- A step that answers is one of the cases of `StepCase`. -/
theorem stepCase_of_step {s t : State} (h : step s = .next t) : StepCase s t := by
  obtain ⟨u, hu, hcase⟩ := step_cases s
  rw [h] at hu
  cases hu
  exact hcase

/-- What every step keeps holds at the end of every run, and no run stops (R167). -/
theorem run_keeps {P : State → Prop} (hstep : ∀ s t, P s → step s = .next t → P t) (n : Nat) {s : State}
    (hs : P s) : ∃ t, run n s = .next t ∧ P t := by
  induction n generalizing s with
  | zero => exact ⟨s, rfl, hs⟩
  | succ n ih =>
    obtain ⟨t, ht, -⟩ := step_cases s
    rw [run_succ ht]
    exact ih (hstep s t hs ht)

/-- The reset value of STATUS has ILL = 0 (R31). -/
theorem illFlag_zero : illFlag 0#8 = false := by decide

/-- Settles O1: the reset state by computation, a reset asserted later by `step_assertReset`. -/
theorem resetLeavesTheListedValues : Obligations.ResetLeavesTheListedValues :=
  ⟨by decide, fun _ _ hp => ⟨_, step_assertReset hp, rfl, illFlag_zero, BitVec.zero_and, rfl, rfl, rfl⟩⟩

/-- Settles O4, by induction on the number of steps, each of them idle. -/
theorem registersHoldWhenTheStreamIsDone : Obligations.RegistersHoldWhenTheStreamIsDone := by
  intro s n hf hp
  induction n with
  | zero => rfl
  | succ n ih => rw [run_succ (step_idle hf hp), ih]

/-- Settles O11: a presented request, one in flight and a placed one all reach `perform`. -/
theorem stepRunsTheDecodedInstruction : Obligations.StepRunsTheDecodedInstruction := by
  refine ⟨fun s cmd o rest i hs hp hi => ?_, fun s r i hf hi hnext => ?_, fun s nbits w i hi => ?_⟩
  · rw [step_presented hs hp, perform_of_decode hi]
    cases o <;> rfl
  · rw [step_inFlight hf hnext, perform_of_decode hi]
  · have hs : Ready (s.withFetchWord nbits w) := ⟨rfl, rfl⟩
    rw [step_presented hs (placeRequest_pending s _)]
    refine (perform_of_decode (decode_tableRequest hi) _).trans ?_
    simp [State.withFetchWord, placeRequest, fillOperand, operandReads]

end Sys2Proof
end

section
/-! What a response writes and what it leaves alone (10_state.md R24, R33; 20_memory.md R45). -/

namespace Sys2Proof

open Sys2Proof.Machine

/-- Settles O13: both blocks write the response that `respond` gives for the request. -/
theorem responseDependsOnItsRequestOnly : Obligations.ResponseDependsOnItsRequestOnly := by
  intro r s s'
  obtain ⟨t, ht, -, -, rfl⟩ := perform_respond r s
  obtain ⟨t', ht', -, -, rfl⟩ := perform_respond r s'
  exact ⟨_, _, ht, ht', by simp⟩

/-- Settles O19: ILL is written by the legality of the request's own command byte. -/
theorem illTellsTheLastRequestApart : Obligations.IllTellsTheLastRequestApart := by
  refine ⟨rfl, fun r s => ?_⟩
  obtain ⟨t, result, ill, ht, hill, -, rfl⟩ := perform_performed r s
  exact ⟨_, ht, by simp [hill]⟩

/-- Settles O20: every command ends in `answer`. -/
theorem commandsWriteOnlyTheirResponse : Obligations.CommandsWriteOnlyTheirResponse := by
  intro i s
  obtain ⟨w, hw⟩ := exec_answers i s
  exact ⟨_, hw, by simp⟩

/-- Reads first in the stream are made one by one, whether or not a request is in flight, and each returns what the
registers hold at the start (R27, R30). -/
theorem run_reads {ms rest : List HostMove} (hms : ms.all isRead = true) (n : Nat) {s : State}
    (hp : s.pending = ms ++ rest) :
    run (n + ms.length) s = run n { s with pending := rest, reads := s.reads ++ ms.map (hostRead s) } := by
  induction ms generalizing s with
  | nil =>
    obtain rfl : rest = s.pending := hp.symm
    simp
  | cons m ms ih =>
    rw [List.all_cons, Bool.and_eq_true] at hms
    rw [List.length_cons, ← Nat.add_assoc, run_succ (step_read hms.1 hp), ih hms.2 rfl]
    have hsame : hostRead { s with pending := ms ++ rest, reads := s.reads ++ [hostRead s m] } = hostRead s := rfl
    simp [hsame]

/-- A request in flight with only reads to come is answered as `respond` gives after those reads (R30, R45). -/
theorem run_inFlight_reads {s : State} {r : Request} (hf : s.inFlight = some r) (hms : s.pending.all isRead = true) :
    ∃ t, run (s.pending.length + 1) s = .next t ∧
      Performed r { s with inFlight := none, pending := [], reads := s.reads ++ s.pending.map (hostRead s) } t
        (respond r).result (respond r).ill := by
  obtain ⟨t, ht, hperf⟩ := perform_respond r
    { s with inFlight := none, pending := [], reads := s.reads ++ s.pending.map (hostRead s) }
  refine ⟨t, ?_, hperf⟩
  rw [Nat.add_comm, run_reads hms 1 (List.append_nil _).symm]
  refine run_succ (t := t) ?_ 0
  exact .trans (step_inFlight hf nofun) ht

/-- Settles O15: the launch, then `run_inFlight_reads`; the presented request fills the same state but for the reads. -/
theorem requestInFlightIsAnsweredAfterReads : Obligations.RequestInFlightIsAnsweredAfterReads := by
  intro s cmd o ms hs hms hp
  have hword : operandWord { s with pending := [.request cmd o] } o = operandWord s o := by cases o <;> rfl
  obtain ⟨u, hu, -, -, rfl⟩ := step_request (s := { s with pending := [.request cmd o] }) hs rfl
  obtain ⟨t, ht, -, -, rfl⟩ := run_inFlight_reads (r := ⟨cmd, operandWord s o⟩)
    (s := { fillOperand { s with pending := ms } o with inFlight := some ⟨cmd, operandWord s o⟩ }) rfl hms
  refine ⟨_, (run_succ (step_launched hs hp) _).trans ht, ⟨rfl, rfl⟩, rfl, rfl, illFlag_writeIll s.status _,
    ?_, _, hu, ?_⟩
  · cases o <;> rfl
  · rw [hword]
    simp [writeResponse, fillOperand, hs.2]

end Sys2Proof
end

section
/-! The invariant of the machine (10_state.md R23 to R26, R31; 60_exceptions.md R141, R143). -/

namespace Sys2Proof

open Sys2Proof.Machine

/-- Settles O21: with no response yet, every field of the invariant is about the reset values. -/
theorem invariantHoldsAtReset : Obligations.InvariantHoldsAtReset := by
  have launch (ms : List HostMove) : Inv (startRun ms) :=
    { reserved_zero := BitVec.zero_and
      index_counts := rfl
      holds_last := .inl ⟨rfl, illFlag_zero⟩
      ill_result_zero := by simp
      mark_matches := rfl
      mark_illegal := by simp
      reset_holds := by simp }
  exact fun ms => ⟨launch ms, launch []⟩

/-- The invariant does not speak of the host's stream and reads. -/
theorem Inv.host {s : State} (h : Inv s) (rest : List HostMove) (reads : List HostRead) :
    Inv { s with pending := rest, reads := reads } :=
  { h with }

/-- Out of reset the invariant does not speak of the request in flight. -/
theorem Inv.withInFlight {s : State} (h : Inv s) (hr : s.inReset = false) (f : Option Request) :
    Inv { s with inFlight := f } :=
  { h with reset_holds := by simp [hr] }

/-- While a request is in flight reset is not asserted (R160). -/
theorem Inv.inReset_of_inFlight {s : State} (h : Inv s) {r : Request} (hf : s.inFlight = some r) :
    s.inReset = false := by
  cases hr : s.inReset with
  | false => rfl
  | true =>
    obtain ⟨-, -, hnone⟩ := h.reset_holds hr
    rw [hf] at hnone
    cases hnone

/-- One more response adds its index to the illegal ones exactly when its ILL is 1. -/
theorem illIndices_append (rs : List Response) (result : Word) (ill : Bool) :
    illIndices (rs ++ [⟨result, ill⟩]) = illIndices rs ++ if ill then [rs.length] else [] := by
  cases ill <;> simp [illIndices, List.zipIdx_append]

/-- Asserting reset keeps the invariant: the responses and the mark stay, and the registers hold their reset values. -/
theorem Inv.assertReset {s : State} (h : Inv s) : Inv (assertReset s) :=
  { h with
    reserved_zero := BitVec.zero_and
    holds_last := .inl ⟨rfl, illFlag_zero⟩
    reset_holds := fun _ => ⟨rfl, rfl, rfl⟩ }

/-- Releasing reset keeps the invariant. -/
theorem Inv.releaseReset {s : State} (h : Inv s) : Inv (releaseReset s) :=
  { h with reset_holds := by simp }

/-- A response keeps the invariant: it is the last one, and it joins the mark exactly when it is illegal. -/
theorem Inv.performed {r : Request} {s t : State} {result : Word} {ill : Bool} (h : Inv s) (hr : s.inReset = false)
    (hp : Performed r s t result ill) : Inv t := by
  obtain ⟨hill, hzero, rfl⟩ := hp
  exact
    { reserved_zero := by simpa using h.reserved_zero
      index_counts := by simp [h.index_counts]
      holds_last := .inr (by simp)
      ill_result_zero := by
        intro q hq
        rcases List.mem_append.1 hq with hq | hq
        · exact h.ill_result_zero q hq
        · rw [List.mem_singleton.1 hq]
          exact hzero
      mark_matches := by
        rw [writeResponse_responses, illIndices_append, ← h.mark_matches, ← h.index_counts]
        cases ill <;> simp [faultIndex]
      mark_illegal := by
        intro k cmd hk
        rcases List.mem_append.1 hk with hk | hk
        · exact h.mark_illegal k cmd hk
        · cases ill <;> simp_all
      reset_holds := by simp [hr] }

/-- Settles O22, by the cases of one step. -/
theorem everyStepKeepsTheInvariant : Obligations.EveryStepKeepsTheInvariant := by
  intro s t hs hstep
  cases stepCase_of_step hstep with
  | idle _ _ ht => exact ht ▸ hs
  | reset rest _ ht => exact ht ▸ (hs.host rest s.reads).assertReset
  | release rest _ _ ht => exact ht ▸ (hs.host rest s.reads).releaseReset
  | readResult rest _ ht => exact ht ▸ hs.host rest _
  | readStatus rest _ ht => exact ht ▸ hs.host rest _
  | dropped _ rest _ _ _ ht => exact ht ▸ hs.host rest s.reads
  | launched _ _ rest _ hr _ ht => exact ht ▸ (hs.host rest _).withInFlight hr _
  | answered _ _ rest _ _ _ hr _ hp => exact (hs.host rest _).performed hr hp
  | completed r _ _ hf hp =>
    have hr := hs.inReset_of_inFlight hf
    exact (hs.withInFlight hr none).performed hr hp

end Sys2Proof
end

section
/-! Between two responses: which steps change RESULT and STATUS, and what the host reads before any response
(10_state.md R25, R27, R32). -/

namespace Sys2Proof

open Sys2Proof.Machine

/-- `t` follows `s` with no response: RESULT and STATUS are kept, or zero after an asserted reset, and what the host has
read is what they held. -/
structure Quiet (s t : State) : Prop where
  responses : t.responses = s.responses
  registers : (t.result = s.result ∧ t.status = s.status) ∨
    (t.result = 0#32 ∧ t.status = 0#8 ∧ ∃ rest, s.pending = .assertReset :: rest)
  reads : ∃ more, t.reads = s.reads ++ more ∧
    ∀ x ∈ more, x = .result s.result ∨ x = .status (statusAsRead s.status)

/-- A step that leaves the responses, the registers and the reads alone is quiet. -/
theorem Quiet.same {s t : State} (hresp : t.responses = s.responses) (hres : t.result = s.result)
    (hst : t.status = s.status) (hreads : t.reads = s.reads) : Quiet s t :=
  ⟨hresp, .inl ⟨hres, hst⟩, [], by simp [hreads]⟩

/-- For its operand the host has read RESULT or nothing (R70). -/
theorem operandReads_result (s : State) (o : HostOperand) : ∀ x ∈ operandReads s o, x = .result s.result := by
  cases o <;> simp [operandReads]

/-- Every step adds one response or is quiet. -/
theorem step_quiet_or_responds {s t : State} (h : step s = .next t) :
    Quiet s t ∨ t.responses.length = s.responses.length + 1 := by
  cases stepCase_of_step h with
  | idle _ _ ht => exact ht ▸ .inl (.same rfl rfl rfl rfl)
  | reset rest hp ht => exact ht ▸ .inl ⟨rfl, .inr ⟨rfl, rfl, rest, hp⟩, [], by simp⟩
  | release rest _ _ ht => exact ht ▸ .inl (.same rfl rfl rfl rfl)
  | readResult rest _ ht => exact ht ▸ .inl ⟨rfl, .inl ⟨rfl, rfl⟩, _, rfl, by simp⟩
  | readStatus rest _ ht => exact ht ▸ .inl ⟨rfl, .inl ⟨rfl, rfl⟩, _, rfl, by simp⟩
  | dropped _ rest _ _ _ ht => exact ht ▸ .inl (.same rfl rfl rfl rfl)
  | launched _ o rest _ _ _ ht =>
    exact ht ▸ .inl ⟨rfl, .inl ⟨rfl, rfl⟩, _, rfl, fun x hx => .inl (operandReads_result _ o x hx)⟩
  | answered _ _ _ _ _ _ _ _ hp =>
    obtain ⟨-, -, rfl⟩ := hp
    exact .inr (by simp)
  | completed _ _ _ _ hp =>
    obtain ⟨-, -, rfl⟩ := hp
    exact .inr (by simp)

/-- Settles O3: a read by `step_read`; a step that changes a register is not quiet, or asserts reset. -/
theorem readsHaveNoSideEffect : Obligations.ReadsHaveNoSideEffect := by
  refine ⟨fun s rest hp => step_read rfl hp, fun s rest hp => step_read rfl hp, fun s t hstep hne => ?_⟩
  rcases step_quiet_or_responds hstep with ⟨-, ⟨hres, hst⟩ | ⟨-, -, hreset⟩, -⟩ | hresp
  · exact absurd hne (by simp [hres, hst])
  · exact .inr hreset
  · exact .inl hresp

/-- Since the run had `n` responses and the reads `before`: as long as no response has been added, RESULT and STATUS hold
0 and every read made since returned 0. -/
def ZeroUntilResponse (n : Nat) (before : List HostRead) (s : State) : Prop :=
  n ≤ s.responses.length ∧
  (s.responses.length = n → s.result = 0#32 ∧ s.status = 0#8 ∧
    ∃ more, s.reads = before ++ more ∧ more.all isZeroRead = true)

/-- Every step keeps the zeros until a response is added. -/
theorem ZeroUntilResponse.step {n : Nat} {before : List HostRead} (s t : State)
    (hs : ZeroUntilResponse n before s) (hstep : step s = .next t) : ZeroUntilResponse n before t := by
  obtain ⟨hle, hzero⟩ := hs
  rcases step_quiet_or_responds hstep with ⟨hresp, hregs, new, hnew, hreturned⟩ | hresp
  · rw [ZeroUntilResponse, hresp]
    refine ⟨hle, fun hn => ?_⟩
    obtain ⟨hres, hst, more, hmore, hall⟩ := hzero hn
    have hnewZero : new.all isZeroRead = true := List.all_eq_true.2 fun x hx => by
      rcases hreturned x hx with rfl | rfl
      · simp [isZeroRead, hres]
      · simp [isZeroRead, hst, statusAsRead]
    have hreads : t.reads = before ++ (more ++ new) := by rw [hnew, hmore, List.append_assoc]
    have hall' : (more ++ new).all isZeroRead = true := by rw [List.all_append, hall, hnewZero]; rfl
    rcases hregs with ⟨hres', hst'⟩ | ⟨hres', hst', -⟩
    · exact ⟨hres'.trans hres, hst'.trans hst, _, hreads, hall'⟩
    · exact ⟨hres', hst', _, hreads, hall'⟩
  · exact ⟨by omega, fun hn => by omega⟩

/-- Settles O2: the zeros hold at launch and right after an asserted reset, and every step keeps them. -/
theorem readsBeforeAnyResponseReturnZero : Obligations.ReadsBeforeAnyResponseReturnZero := by
  refine ⟨fun ms n => ?_, fun s rest n hp => ?_⟩
  · have hinit : ZeroUntilResponse 0 [] (startRun ms) := ⟨le_refl _, fun _ => ⟨rfl, rfl, [], rfl, rfl⟩⟩
    obtain ⟨t, ht, -, hzero⟩ := run_keeps ZeroUntilResponse.step n hinit
    refine ⟨t, ht, fun hnone => ?_⟩
    obtain ⟨hres, hst, more, hmore, hall⟩ := hzero (by simp [hnone])
    exact ⟨hres, by rw [hst]; rfl, by rwa [hmore]⟩
  · have hinit : ZeroUntilResponse s.responses.length s.reads (assertReset { s with pending := rest }) :=
      ⟨le_refl _, fun _ => ⟨rfl, rfl, [], by simp⟩⟩
    obtain ⟨t, ht, -, hzero⟩ := run_keeps ZeroUntilResponse.step n hinit
    refine ⟨t, by rw [run_succ (step_assertReset hp), ht], fun hsame => ?_⟩
    obtain ⟨hres, hst, hreads⟩ := hzero hsame
    exact ⟨hres, by rw [hst]; rfl, hreads⟩

end Sys2Proof
end

section
/-! PROOF. A pixel's buffer bytes (R43): `pixelBytes` takes a concatenation of channel lists to the concatenation of their
bytes, and one channel to its own bytes in the order of the buffer. -/

namespace Sys2Proof

open Sys2Proof.Machine

@[simp] theorem pixelBytes_append (o : ByteOrder) (xs ys : List Channel) :
    pixelBytes o (xs ++ ys) = pixelBytes o xs ++ pixelBytes o ys :=
  List.flatMap_append

@[simp] theorem pixelBytes_singleton (o : ByteOrder) (c : Channel) : pixelBytes o [c] = channelBytes o c :=
  List.flatMap_singleton _ _

@[simp] theorem channelBytes_little (c : Channel) : channelBytes .little c = channelBytesLittle c := rfl

@[simp] theorem channelBytes_big (c : Channel) : channelBytes .big c = (channelBytesLittle c).reverse := rfl

/-- A byte channel is its one byte in either order: a list of one byte is its own reverse. -/
theorem channelBytes_bits8 (o : ByteOrder) (b : Byte) : channelBytes o (.bits8 b) = [b] := by
  cases o with
  | little => rfl
  | big => rfl

/-- Settles O52: `flatMap` distributes over append, and a big-endian channel is its little-endian bytes reversed. -/
theorem pixelBytesAreConcatenatedChannels : Obligations.PixelBytesAreConcatenatedChannels := by
  refine ⟨pixelBytes_append, fun o b => ?bits8, fun h => ⟨?little16, ?big16⟩, fun w => ⟨?little32, ?big32⟩⟩
  case bits8 => rw [pixelBytes_singleton, channelBytes_bits8]
  case little16 | little32 => rw [pixelBytes_singleton, channelBytes_little, channelBytesLittle]
  case big16 | big32 => simp [channelBytesLittle]

end Sys2Proof
end

section
/-! The decoder and the encoder: the opcode map, the legal bytes, and what agrees between the two
(30_encoding.md R61, R64, R65, R67). -/

namespace Sys2Proof

open Sys2Proof.Machine

/-! The six rows of the opcode map, encoded and decoded (R64). -/

@[simp] theorem encode_srgb8ToF32 (w : Word) : encode (.srgb8ToF32 w) = ⟨0x00#8, w⟩ := by
  simp [encode, Instr.mnemonic, Instr.operand, Mnemonic.cmd, Format.bits, Direction.bits]
@[simp] theorem encode_f32ToSrgb8 (w : Word) : encode (.f32ToSrgb8 w) = ⟨0x01#8, w⟩ := by
  simp [encode, Instr.mnemonic, Instr.operand, Mnemonic.cmd, Format.bits, Direction.bits]
@[simp] theorem encode_unorm8ToF32 (w : Word) : encode (.unorm8ToF32 w) = ⟨0x02#8, w⟩ := by
  simp [encode, Instr.mnemonic, Instr.operand, Mnemonic.cmd, Format.bits, Direction.bits]
@[simp] theorem encode_f32ToUnorm8 (w : Word) : encode (.f32ToUnorm8 w) = ⟨0x03#8, w⟩ := by
  simp [encode, Instr.mnemonic, Instr.operand, Mnemonic.cmd, Format.bits, Direction.bits]
@[simp] theorem encode_unorm16ToF32 (w : Word) : encode (.unorm16ToF32 w) = ⟨0x04#8, w⟩ := by
  simp [encode, Instr.mnemonic, Instr.operand, Mnemonic.cmd, Format.bits, Direction.bits]
@[simp] theorem encode_f32ToUnorm16 (w : Word) : encode (.f32ToUnorm16 w) = ⟨0x05#8, w⟩ := by
  simp [encode, Instr.mnemonic, Instr.operand, Mnemonic.cmd, Format.bits, Direction.bits]

@[simp] theorem decode_srgb8ToF32 (w : Word) : decode ⟨0x00#8, w⟩ = .ok (.srgb8ToF32 w) := by
  simp [decode, rsvField, fmtField, dirField]
@[simp] theorem decode_f32ToSrgb8 (w : Word) : decode ⟨0x01#8, w⟩ = .ok (.f32ToSrgb8 w) := by
  simp [decode, rsvField, fmtField, dirField]
@[simp] theorem decode_unorm8ToF32 (w : Word) : decode ⟨0x02#8, w⟩ = .ok (.unorm8ToF32 w) := by
  simp [decode, rsvField, fmtField, dirField]
@[simp] theorem decode_f32ToUnorm8 (w : Word) : decode ⟨0x03#8, w⟩ = .ok (.f32ToUnorm8 w) := by
  simp [decode, rsvField, fmtField, dirField]
@[simp] theorem decode_unorm16ToF32 (w : Word) : decode ⟨0x04#8, w⟩ = .ok (.unorm16ToF32 w) := by
  simp [decode, rsvField, fmtField, dirField]
@[simp] theorem decode_f32ToUnorm16 (w : Word) : decode ⟨0x05#8, w⟩ = .ok (.f32ToUnorm16 w) := by
  simp [decode, rsvField, fmtField, dirField]

/-- Settles O8: each command's row of the opcode map, encoded and decoded. -/
theorem decodeOfEncodeIsTheInstruction : Obligations.DecodeOfEncodeIsTheInstruction := by
  intro i
  cases i with
  | srgb8ToF32 w => rw [encode_srgb8ToF32, decode_srgb8ToF32]
  | f32ToSrgb8 w => rw [encode_f32ToSrgb8, decode_f32ToSrgb8]
  | unorm8ToF32 w => rw [encode_unorm8ToF32, decode_unorm8ToF32]
  | f32ToUnorm8 w => rw [encode_f32ToUnorm8, decode_f32ToUnorm8]
  | unorm16ToF32 w => rw [encode_unorm16ToF32, decode_unorm16ToF32]
  | f32ToUnorm16 w => rw [encode_f32ToUnorm16, decode_f32ToUnorm16]

/-- A legal request is the encoding of some instruction: its byte is one of the six of the opcode map. -/
theorem exists_encode_eq {r : Request} (h : cmdLegal r.cmd = true) : ∃ i, encode i = r := by
  have six : ∀ c : Byte, cmdLegal c = true →
      c = 0x00#8 ∨ c = 0x01#8 ∨ c = 0x02#8 ∨ c = 0x03#8 ∨ c = 0x04#8 ∨ c = 0x05#8 := by decide
  obtain ⟨cmd, w⟩ := r
  rcases six cmd h with rfl | rfl | rfl | rfl | rfl | rfl
  · exact ⟨.srgb8ToF32 w, encode_srgb8ToF32 w⟩
  · exact ⟨.f32ToSrgb8 w, encode_f32ToSrgb8 w⟩
  · exact ⟨.unorm8ToF32 w, encode_unorm8ToF32 w⟩
  · exact ⟨.f32ToUnorm8 w, encode_f32ToUnorm8 w⟩
  · exact ⟨.unorm16ToF32 w, encode_unorm16ToF32 w⟩
  · exact ⟨.f32ToUnorm16 w, encode_f32ToUnorm16 w⟩

/-- A request decodes to an instruction exactly when its command byte is legal (R67). -/
theorem exists_decode_ok_iff (r : Request) : (∃ i, decode r = .ok i) ↔ cmdLegal r.cmd = true := by
  refine ⟨fun ⟨i, hi⟩ => ?_, fun h => decode_legal r.cmd h r.opnd⟩
  by_contra hl
  rw [decode_illegal r.cmd (Bool.eq_false_iff.2 hl) r.opnd] at hi
  cases hi

/-- A byte is refused, with some operand, exactly when it is not legal (R67). -/
theorem exists_decode_error_iff (cmd : Byte) : (∃ w e, decode ⟨cmd, w⟩ = .error e) ↔ cmdLegal cmd = false := by
  refine ⟨fun ⟨w, e, he⟩ => ?_, fun h => ⟨0, _, decode_illegal cmd h 0⟩⟩
  by_contra hl
  obtain ⟨i, hi⟩ := decode_legal cmd (Bool.not_eq_false _ ▸ hl) w
  rw [hi] at he
  cases he

/-- A legal byte by its fields (R64). -/
theorem cmdLegal_iff_fields (cmd : Byte) :
    cmdLegal cmd = true ↔ cmd.extractLsb' 3 5 = 0b00000#5 ∧ cmd.extractLsb' 1 2 ≠ 0b11#2 := by
  rw [cmdLegal, Bool.and_eq_true, beq_iff_eq, bne_iff_ne]

/-- An illegal byte by its fields (R67). -/
theorem cmdIllegal_iff_fields (cmd : Byte) :
    cmdLegal cmd = false ↔ cmd.extractLsb' 3 5 ≠ 0b00000#5 ∨ cmd.extractLsb' 1 2 = 0b11#2 := by
  rw [← Bool.not_eq_true, cmdLegal_iff_fields, not_and_or, not_not]

/-- The illegal bytes, listed (R67). -/
theorem cmdIllegal_iff_listed (cmd : Byte) :
    cmdLegal cmd = false ↔ cmd = 0x06#8 ∨ cmd = 0x07#8 ∨ 0x08#8 ≤ cmd := by
  revert cmd
  decide

/-- Settles O9: a request that decodes is the encoding of some instruction, which O8 says is the one it decodes to. -/
theorem encodeOfDecodeIsTheRequest : Obligations.EncodeOfDecodeIsTheRequest := by
  intro r i hi
  obtain ⟨j, rfl⟩ := exists_encode_eq ((exists_decode_ok_iff r).1 ⟨i, hi⟩)
  rw [decodeOfEncodeIsTheInstruction, Except.ok.injEq] at hi
  rw [hi]

/-- Settles O10: the bytes refused are the illegal ones, by fields and by list; performing one raises the exception. -/
theorem illegalBytesGetTheIllegalResponse : Obligations.IllegalBytesGetTheIllegalResponse := by
  refine ⟨fun cmd => ?_, fun cmd => ?_, by decide +kernel, fun cmd opnd s h => ?_⟩
  · rw [exists_decode_error_iff, cmdIllegal_iff_fields]
  · rw [exists_decode_error_iff, cmdIllegal_iff_listed]
  · obtain ⟨t, ht, -, -, rfl⟩ := perform_respond ⟨cmd, opnd⟩ s
    rw [respond_illegal ((cmdIllegal_iff_fields cmd).2 h)] at ht
    exact ⟨_, ht, rfl, illFlag_writeIll s.status true⟩

/-- Settles O6: the six rows of the map, and the legal bytes by their fields. -/
theorem opcodeMapOfSixCommands : Obligations.OpcodeMapOfSixCommands :=
  ⟨fun w => ⟨encode_srgb8ToF32 w, encode_f32ToSrgb8 w, encode_unorm8ToF32 w, encode_f32ToUnorm8 w,
      encode_unorm16ToF32 w, encode_f32ToUnorm16 w⟩,
    fun cmd w => (exists_decode_ok_iff ⟨cmd, w⟩).trans (cmdLegal_iff_fields cmd)⟩

/-- Settles O7: six rows of the map, and two bytes that are illegal by their fields. -/
theorem writtenRequestsDecode : Obligations.WrittenRequestsDecode :=
  ⟨decode_srgb8ToF32 _, decode_f32ToSrgb8 _, decode_unorm8ToF32 _, decode_f32ToUnorm8 _, decode_unorm16ToF32 _,
    decode_f32ToUnorm16 _, decode_illegal _ (by decide) _, decode_illegal _ (by decide) _⟩

/-- Settles O12: the step performs the request with its operand filled in. -/
theorem stepWritesRespond : Obligations.StepWritesRespond := by
  intro s cmd o rest hs hp
  obtain ⟨t, ht, -, -, rfl⟩ := step_request hs hp
  exact ⟨_, ht, rfl, illFlag_writeIll s.status _, rfl⟩

/-- Settles O47: the three commands read their operand through its low 8 or 16 bits alone. -/
theorem upperOperandBitsAreIgnored : Obligations.UpperOperandBitsAreIgnored := by
  refine ⟨fun a b s h => ?_, fun a b s h => ?_⟩
  · have hu : operandU8 a = operandU8 b := congrArg BitVec.toNat h
    simp only [exec, execSrgb8ToF32, execUnorm8ToF32, srgb8ToF32, unorm8ToF32, hu, and_self]
  · have hu : operandU16 a = operandU16 b := congrArg BitVec.toNat h
    simp only [exec, execUnorm16ToF32, unorm16ToF32, hu]

end Sys2Proof
end

section
/-! The assembler: when it refuses a program, and a pseudo-instruction as its two commands (30_encoding.md R70, R71). -/

namespace Sys2Proof

open Sys2Proof.Machine

/-- A program that is not well formed is refused. -/
theorem assemble_eq_none {p : List Line} (h : programWf p = false) : assemble p = none := by
  rw [assemble, h, if_neg Bool.false_ne_true]

/-- A line that is well formed in no place makes its program refused. -/
theorem assemble_eq_none_of_mem {l : Line} {p : List Line} (hl : ∀ first, l.wf first = false) (hmem : l ∈ p) :
    assemble p = none := by
  refine assemble_eq_none ?_
  cases p with
  | nil => cases hmem
  | cons x xs =>
    rw [programWf, Bool.and_eq_false_iff]
    rcases List.mem_cons.1 hmem with rfl | hmem
    · exact .inl (hl true)
    · exact .inr (List.all_eq_false.2 ⟨l, hmem, by simp [hl]⟩)

/-- A decimal literal is no integer operand (R70). -/
theorem dec_wf_intoFloat (first : Bool) (d : Decimal) : AsmOperand.wf first .intoFloat (.dec d) = false := rfl

/-- R71 gives a pseudo-instruction to the pairs of different formats. -/
theorem pseudoExists_iff (f g : Format) : pseudoExists f g = true ↔ f ≠ g := by
  cases f <;> cases g <;> decide

/-- Between different formats a pseudo-instruction is as well formed as its first command (R71). -/
theorem pseudo_wf {f g : Format} (hfg : f ≠ g) (first : Bool) (o : AsmOperand) :
    Line.wf first (.pseudo f g o) = Line.wf first (.command ⟨f, .intoFloat⟩ o) := by
  rw [Line.wf, Line.wf, (pseudoExists_iff f g).2 hfg, Bool.true_and]

/-- Its second command, on a later line, always is (R70, R71). -/
theorem command_atR_wf (m : Mnemonic) : Line.wf false (.command m .atR) = true := rfl

/-- Writing out the two commands leaves a program as well formed as it was. -/
theorem programWf_pseudo {f g : Format} (hfg : f ≠ g) (o : AsmOperand) (p q : List Line) :
    programWf (p ++ .pseudo f g o :: q) =
      programWf (p ++ .command ⟨f, .intoFloat⟩ o :: .command ⟨g, .outOfFloat⟩ .atR :: q) := by
  cases p with
  | nil => simp [programWf, pseudo_wf hfg, command_atR_wf]
  | cons x xs => simp [programWf, pseudo_wf hfg, command_atR_wf]

/-- A pseudo-instruction's requests are those of its two commands (R71). -/
theorem assembleLine_pseudo (f g : Format) (o : AsmOperand) :
    assembleLine (.pseudo f g o) =
      assembleLine (.command ⟨f, .intoFloat⟩ o) ++ assembleLine (.command ⟨g, .outOfFloat⟩ .atR) := rfl

/-- Settles O49: the refusals by the line at fault, the expansion by that of the line. -/
theorem assemblerExpandsPseudoInstructions : Obligations.AssemblerExpandsPseudoInstructions := by
  refine ⟨fun m f g ls => ⟨assemble_eq_none ?_, assemble_eq_none ?_⟩,
    fun f g d p => ⟨assemble_eq_none_of_mem fun first => ?_, assemble_eq_none_of_mem fun first => ?_⟩,
    fun f o p => assemble_eq_none_of_mem fun first => ?_, fun f g n hfg hn => ?_, fun f g o p q hfg => ?_⟩
  · simp [programWf, Line.wf, AsmOperand.wf]
  · simp [programWf, Line.wf, AsmOperand.wf]
  · rw [Line.wf, dec_wf_intoFloat]
  · rw [Line.wf, dec_wf_intoFloat, Bool.and_false]
  · rw [Line.wf, Bool.eq_false_iff.2 fun h => (pseudoExists_iff f f).1 h rfl, Bool.false_and]
  · have hwf : programWf [.pseudo f g (.hex n)] = true := by
      simpa [programWf, Line.wf, AsmOperand.wf, (pseudoExists_iff f g).2 hfg] using hn
    rw [assemble, if_pos hwf]
    rfl
  · rw [assemble, assemble, programWf_pseudo hfg]
    simp only [List.flatMap_append, List.flatMap_cons, assembleLine_pseudo, List.append_assoc]

end Sys2Proof
end

section
/-! Rounding within a binade: the values there lie on a grid, a rounding is at most half a step off, and a point of the grid
is what every real nearer to it than half a step rounds to (00_scope.md R13, R14). -/

namespace Sys2Proof

open Sys2Proof.Machine

/-- The distance of neighbouring values in the binade that starts at `2^23` steps. -/
noncomputable def gridStep (e : Nat) : ℝ := 2 ^ e / 2 ^ 149

theorem gridStep_pos (e : Nat) : 0 < gridStep e := by
  rw [gridStep]
  positivity

/-- The magnitude of `m` steps, from the start of the binade to its end, is that of the pattern `2^23 * e + m`. -/
theorem magVal_grid {m : Nat} (e : Nat) (hlo : 2 ^ 23 ≤ m) (hhi : m ≤ 2 ^ 24) :
    (magVal (8388608 * e + m) : ℝ) = m * gridStep e := by
  have hunits : magUnits (8388608 * e + m) = m * 2 ^ e := by
    rcases hhi.lt_or_eq with hlt | rfl
    · have h := magUnits_split (e + 1) (m - 8388608) (by omega)
      rwa [show 8388608 * (e + 1) + (m - 8388608) = 8388608 * e + m by omega, if_neg (by omega),
        show 8388608 + (m - 8388608) = m by omega, Nat.add_sub_cancel] at h
    · have h := magUnits_split (e + 2) 0 (by omega)
      rw [if_neg (by omega), show e + 2 - 1 = e + 1 by omega] at h
      rw [show 8388608 * e + 2 ^ 24 = 8388608 * (e + 2) + 0 by omega, h]
      ring
  rw [magVal_eq, hunits, gridStep]
  push_cast
  ring

/-- From the start of a binade on, every magnitude is a multiple of its step. -/
theorem exists_mul_gridStep {e n : Nat} (h : 8388608 * (e + 1) ≤ n) : ∃ z : ℤ, (magVal n : ℝ) = z * gridStep e := by
  obtain ⟨q, r, hr, rfl⟩ : ∃ q r, r < 8388608 ∧ n = 8388608 * (e + 1 + q) + r :=
    ⟨n / 8388608 - (e + 1), n % 8388608, Nat.mod_lt _ (by norm_num), by omega⟩
  refine ⟨(8388608 + r) * 2 ^ q, ?_⟩
  rw [magVal_eq, magUnits_split _ _ hr, if_neg (by omega), show e + 1 + q - 1 = e + q by omega, gridStep]
  push_cast
  ring

/-- A rounding is no farther off than a finite magnitude. -/
theorem IsRNE32.dist_le_magVal {x : ℝ} {b : Word} (h : IsRNE32 x b) {n : Nat} (hn : n < 0x7F800000) :
    |(val b : ℝ) - x| ≤ |(magVal n : ℝ) - x| := by
  have hn' : n < 0x80000000 := by omega
  have := (h.2.2 (pattern false n) ((isFinite_pattern false hn').2 hn)).1
  rwa [val_pattern false hn', if_neg Bool.false_ne_true] at this

/-- Within a binade a rounding is at most half a step off: some point of the grid is that near. -/
theorem IsRNE32.dist_le {x : ℝ} {b : Word} (h : IsRNE32 x b) {e : Nat} (he : e < 253)
    (hlo : 2 ^ 23 * gridStep e ≤ x) (hhi : x ≤ 2 ^ 24 * gridStep e) : |(val b : ℝ) - x| ≤ gridStep e / 2 := by
  have hg := gridStep_pos e
  obtain ⟨y, rfl⟩ : ∃ y, x = y * gridStep e := ⟨x / gridStep e, (div_mul_cancel₀ x hg.ne').symm⟩
  have hy : 2 ^ 23 ≤ y := le_of_mul_le_mul_right hlo hg
  have hy' : y ≤ 2 ^ 24 := le_of_mul_le_mul_right hhi hg
  have hfloor : (⌊y + 1 / 2⌋₊ : ℝ) ≤ y + 1 / 2 := Nat.floor_le (by linarith)
  have hceil : y + 1 / 2 < ⌊y + 1 / 2⌋₊ + 1 := Nat.lt_floor_add_one _
  have hm : 2 ^ 23 ≤ ⌊y + 1 / 2⌋₊ := Nat.le_floor (by push_cast; linarith)
  have hm' : ⌊y + 1 / 2⌋₊ ≤ 2 ^ 24 := Nat.lt_succ_iff.1 ((Nat.floor_lt (by linarith)).2 (by push_cast; linarith))
  calc |(val b : ℝ) - y * gridStep e|
      ≤ |(magVal (8388608 * e + ⌊y + 1 / 2⌋₊) : ℝ) - y * gridStep e| := h.dist_le_magVal (by omega)
    _ = |(⌊y + 1 / 2⌋₊ : ℝ) - y| * gridStep e := by rw [magVal_grid e hm hm', ← sub_mul, abs_mul, abs_of_pos hg]
    _ ≤ 1 / 2 * gridStep e := mul_le_mul_of_nonneg_right (abs_le.2 ⟨by linarith, by linarith⟩) hg.le
    _ = gridStep e / 2 := by ring

/-- What lies nearer than half a step to a point of the grid rounds to it, but for the start of the binade, below which the
grid is finer. -/
theorem IsRNE32.eq_of_near {x : ℝ} {b : Word} (h : IsRNE32 x b) {e m : Nat} (he : e < 253) (hlo : 2 ^ 23 < m)
    (hhi : m ≤ 2 ^ 24) (hx : |m * gridStep e - x| < gridStep e / 2) : (val b : ℝ) = m * gridStep e := by
  have hg := gridStep_pos e
  have hnear : |(val b : ℝ) - m * gridStep e| < 1 * gridStep e := by
    have hdist := h.dist_le_magVal (n := 8388608 * e + m) (by omega)
    rw [magVal_grid e hlo.le hhi] at hdist
    calc |(val b : ℝ) - m * gridStep e| ≤ |(val b : ℝ) - x| + |x - m * gridStep e| := abs_sub_le ..
      _ < 1 * gridStep e := by rw [abs_sub_comm x]; linarith
  have hstart : (magVal (8388608 * e + 2 ^ 23) : ℝ) < val b := by
    have hm : (2 ^ 23 : ℝ) + 1 ≤ m := by exact_mod_cast hlo
    have := mul_le_mul_of_nonneg_right hm hg.le
    rw [magVal_grid e le_rfl (by norm_num)]
    push_cast
    linarith [(abs_lt.1 hnear).1]
  obtain ⟨neg, n, hn, rfl⟩ := exists_finite_pattern h.1
  rw [val_pattern neg (by omega)] at hstart hnear ⊢
  cases neg with
  | true =>
    rw [if_pos rfl, Rat.cast_lt] at hstart
    linarith [magVal_nonneg n, magVal_nonneg (8388608 * e + 2 ^ 23)]
  | false =>
    rw [if_neg Bool.false_ne_true] at hstart hnear ⊢
    have hn : 8388608 * e + 2 ^ 23 < n := magVal_lt_iff.1 (Rat.cast_lt.1 hstart)
    obtain ⟨z, hz⟩ := exists_mul_gridStep (e := e) (n := n) (by omega)
    rw [hz, ← sub_mul, abs_mul, abs_of_pos hg] at hnear
    have hzm : |z - m| < 1 := by exact_mod_cast lt_of_mul_lt_mul_right hnear hg.le
    rw [hz, show z = m by simpa [sub_eq_zero] using Int.abs_lt_one_iff.1 hzm]
    push_cast
    rfl

end Sys2Proof
end

section
/-! From the 16-bit grid into float and back: the quotient's rounding error is undone by the product's rounding
(41_unorm_rescale.md R113 to R116). -/

namespace Sys2Proof

open Sys2Proof.Machine

/-- The rounded quotient of `v` by 65535, multiplied out again, rounds to `v`, for `v` between two powers of two. -/
theorem round_mul_round_div {v k : Nat} {c p : Word} (hk : k < 16) (hlo : 2 ^ k < v) (hhi : v < 2 ^ (k + 1))
    (hc : IsRNE32 ((v : ℝ) / 65535) c) (hp : IsRNE32 ((val c : ℝ) * 65535) p) : (val p : ℝ) = v := by
  have hv : (2 ^ k : ℝ) < v := by exact_mod_cast hlo
  have hv' : (v : ℝ) + 1 ≤ 2 ^ (k + 1) := by exact_mod_cast hhi
  have hk1 : (1 : ℝ) ≤ 2 ^ k := one_le_pow₀ one_le_two
  have hk15 : (2 ^ k : ℝ) ≤ 2 ^ 15 := pow_le_pow_right₀ one_le_two (by omega)
  rw [pow_succ] at hv'
  have hstep : gridStep (110 + k) = 2 ^ k / 2 ^ 39 := by
    rw [gridStep, pow_add]
    ring
  have hstep' : gridStep (126 + k) = 2 ^ k / 2 ^ 23 := by
    rw [gridStep, pow_add]
    ring
  have herr := hc.dist_le (e := 110 + k) (by omega) (by rw [hstep]; linarith) (by rw [hstep]; linarith)
  have hgrid : ((v * 2 ^ (23 - k) : ℕ) : ℝ) * gridStep (126 + k) = v := by
    have : (2 : ℝ) ^ (23 - k) * 2 ^ k = 2 ^ 23 := by rw [← pow_add, Nat.sub_add_cancel (by omega)]
    rw [hstep']
    push_cast
    field_simp
    linear_combination (v : ℝ) * this
  have hpow : 2 ^ k * 2 ^ (23 - k) = 2 ^ 23 := by rw [← pow_add, Nat.add_sub_cancel' (by omega)]
  have hm : 2 ^ 23 < v * 2 ^ (23 - k) := by
    rw [← hpow]
    exact Nat.mul_lt_mul_of_pos_right hlo (Nat.two_pow_pos _)
  have hm' : v * 2 ^ (23 - k) ≤ 2 ^ 24 := by
    rw [pow_succ 2 23, ← hpow, mul_right_comm, ← pow_succ]
    exact Nat.mul_le_mul_right _ hhi.le
  rw [← hgrid]
  refine hp.eq_of_near (by omega) hm hm' ?_
  rw [hgrid, hstep', abs_sub_comm]
  calc |(val c : ℝ) * 65535 - v| = |(val c : ℝ) - v / 65535| * 65535 := by
        rw [← abs_of_pos (by norm_num : (0 : ℝ) < 65535), ← abs_mul, abs_of_pos (by norm_num : (0 : ℝ) < 65535)]
        congr 1
        ring
    _ ≤ gridStep (110 + k) / 2 * 65535 := mul_le_mul_of_nonneg_right herr (by norm_num)
    _ < 2 ^ k / 2 ^ 23 / 2 := by rw [hstep]; linarith

/-- The 16-bit grid comes back exactly: in [0, 65535] the product of the rounded quotient is the integer it was made of. -/
theorem mul32_div32_unorm16 {v : Nat} (hv : v ≤ 65535) : mul32 (div32 v 65535) 65535 = v := by
  have hpow : ∀ k < 16, mul32 (div32 ((2 ^ k : Nat) : ℚ) 65535) 65535 = (2 ^ k : Nat) := by decide +kernel
  rcases Nat.eq_zero_or_pos v with rfl | hpos
  · decide +kernel
  have hk : Nat.log 2 v < 16 := Nat.log_lt_of_lt_pow hpos.ne' (by omega)
  rcases (Nat.pow_log_le_self 2 hpos.ne').eq_or_lt with heq | hlt
  · rw [← heq]
    exact hpow _ hk
  obtain ⟨h0, h1⟩ : 0 ≤ div32 (v : ℚ) 65535 ∧ div32 (v : ℚ) 65535 ≤ 1 :=
    div32_unit (by positivity) (by norm_num) (by exact_mod_cast hv)
  have hq1 : (v : ℚ) / 65535 ≤ 1 := (div_le_one (by norm_num)).2 (by exact_mod_cast hv)
  obtain ⟨hc, hcv⟩ := roundingIsToNearestEven ((v : ℚ) / 65535) (abs_lt_of_le_two (by positivity) (by linarith))
  obtain ⟨hp, hpv⟩ := roundingIsToNearestEven (div32 (v : ℚ) 65535 * 65535) (by
    rw [abs_of_nonneg (by positivity)]
    linarith)
  rw [mul32, ← hpv]
  rw [div32, ← hcv] at hp ⊢
  push_cast at hc hp
  exact_mod_cast round_mul_round_div hk hlt (Nat.lt_pow_succ_log_self (by norm_num) v) hc hp

end Sys2Proof
end

section
/-! UNORM8_TO_UNORM16 (30_encoding.md R71): the 8-bit grid lies on the 16-bit one. -/

namespace Sys2Proof

open Sys2Proof.Machine

/-- A quotient of `[0, 1]` goes through its pattern and the clamp unchanged (R13, R16). -/
theorem clamp01_bits32_div32 {a b : ℚ} (ha : 0 ≤ a) (hb : 0 < b) (hab : a ≤ b) :
    clamp01 (bits32 (div32 a b)) = div32 a b := by
  obtain ⟨h0, h1⟩ := div32_unit ha hb hab
  obtain ⟨hr, hv⟩ := roundingIsToNearestEven (a / b)
    (abs_lt_of_le_two (div_nonneg ha hb.le) (((div_le_one hb).2 hab).trans one_le_two))
  have hkeep : bits32 (div32 a b) = bits32 (a / b) := by
    rw [div32, ← hv]
    exact (binary32ValuesAreKept _ hr.1).2 hr.2.1
  rw [clamp01_of_le_one (bits32_le_one h0 h1), hkeep, hv, div32]

/-- `trunc` is the library's floor into the natural numbers (R12). -/
theorem trunc_eq_floor (x : ℚ) : trunc x = ⌊x⌋₊ := rfl

/-- Settles O51: `u / 255` is `257 * u / 65535`, which comes back exactly. -/
theorem unorm8ToUnorm16Scales : Obligations.Unorm8ToUnorm16Scales := by
  intro u hu
  have hop : operandU8 (BitVec.ofNat 32 u) = u := by
    simp [operandU8]
    omega
  have hdiv : div32 (u : ℚ) 255 = div32 ((257 * u : Nat) : ℚ) 65535 := by
    rw [div32, div32]
    congr 1
    push_cast
    ring
  have hprod : mul32 (clamp01 (unorm8ToF32 (BitVec.ofNat 32 u))) 65535 = (257 * u : Nat) := by
    rw [unorm8ToF32, hop, clamp01_bits32_div32 (by positivity) (by norm_num) (by exact_mod_cast hu), hdiv,
      mul32_div32_unorm16 (by omega)]
  have htrunc : clampNat 0 65535 (trunc ((257 * u : Nat) : ℚ)) = 257 * u := by
    rw [trunc_eq_floor, Nat.floor_natCast, clampNat]
    omega
  rw [f32ToUnorm16, hprod, htrunc]
  exact BitVec.eq_of_toNat_eq (by simp (disch := omega) [resultU16, Nat.mod_eq_of_lt])

end Sys2Proof
end

section
/-! How far off a rounding is, and roundings of the numbers up to 256 that the codec meets (00_scope.md R14). -/

namespace Sys2Proof

open Sys2Proof.Machine

/-- Every real from 0 up to a magnitude lies between two neighbouring magnitudes. -/
theorem exists_bracket {x : ℝ} {k : Nat} (h0 : 0 ≤ x) (hk : x < magVal k) :
    ∃ n < k, (magVal n : ℝ) ≤ x ∧ x < magVal (n + 1) := by
  induction k with
  | zero =>
    rw [magVal_zero, Rat.cast_zero] at hk
    exact absurd h0 hk.not_ge
  | succ k ih =>
    rcases lt_or_ge x (magVal k) with hlt | hge
    · obtain ⟨n, hn, hbr⟩ := ih hlt
      exact ⟨n, by omega, hbr⟩
    · exact ⟨k, by omega, hge, hk⟩

/-- Below the first binade, and at its start, a magnitude is that many units of 2^-149. -/
theorem magVal_subnormal {n : Nat} (hn : n ≤ 2 ^ 23) : (magVal n : ℝ) = n / 2 ^ 149 := by
  rcases hn.lt_or_eq with hlt | rfl
  · have h := magUnits_split 0 n hlt
    rw [mul_zero, zero_add, if_pos rfl] at h
    rw [magVal_eq, h]
    push_cast
    rfl
  · have h := magVal_grid (m := 2 ^ 23) 0 le_rfl (by norm_num)
    rwa [mul_zero, zero_add, gridStep, pow_zero, mul_one_div] at h

/-- Neighbouring magnitudes differ by a relative 2^-23 at most, and by one unit below the first binade. -/
theorem magVal_succ_le (n : Nat) : (magVal (n + 1) : ℝ) ≤ magVal n + (magVal n / 2 ^ 23 + 1 / 2 ^ 149) := by
  rcases Nat.lt_or_ge n (2 ^ 23) with hlt | hge
  · rw [magVal_subnormal hlt, magVal_subnormal hlt.le]
    push_cast
    have : (0 : ℝ) ≤ n / 2 ^ 149 / 2 ^ 23 := by positivity
    rw [add_div]
    linarith
  · obtain ⟨e, m, hlo, hhi, rfl⟩ : ∃ e m, 2 ^ 23 ≤ m ∧ m < 2 ^ 24 ∧ n = 8388608 * e + m :=
      ⟨n / 8388608 - 1, 8388608 + n % 8388608, by omega, by omega, by omega⟩
    have hg := gridStep_pos e
    have hm : (2 ^ 23 : ℝ) ≤ m := by exact_mod_cast hlo
    have hstep : gridStep e ≤ m * gridStep e / 2 ^ 23 := by
      rw [le_div_iff₀ (by positivity), mul_comm]
      exact mul_le_mul_of_nonneg_right hm hg.le
    rw [add_assoc, magVal_grid e hlo hhi.le, magVal_grid e (by omega) hhi]
    push_cast
    linarith [show (0 : ℝ) ≤ 1 / 2 ^ 149 by positivity]

/-- A rounding is at most a relative 2^-24 off, or half a unit below the first binade. -/
theorem IsRNE32.error_le {x : ℝ} {b : Word} (h : IsRNE32 x b) (h0 : 0 ≤ x) (hx : x < magVal 0x7F7FFFFF) :
    |(val b : ℝ) - x| ≤ (x / 2 ^ 23 + 1 / 2 ^ 149) / 2 := by
  obtain ⟨n, hn, hlo, hhi⟩ := exists_bracket h0 hx
  have hbelow := h.dist_le_magVal (n := n) (by omega)
  have habove := h.dist_le_magVal (n := n + 1) (by omega)
  rw [abs_of_nonpos (by linarith : (magVal n : ℝ) - x ≤ 0)] at hbelow
  rw [abs_of_nonneg (by linarith : 0 ≤ (magVal (n + 1) : ℝ) - x)] at habove
  have hgap := magVal_succ_le n
  have hscale : (magVal n : ℝ) / 2 ^ 23 ≤ x / 2 ^ 23 := div_le_div_of_nonneg_right hlo (by positivity)
  linarith

/-- The absolute error of rounding a number of [0, 256]. -/
theorem IsRNE32.near {x : ℝ} {b : Word} (h : IsRNE32 x b) (h0 : 0 ≤ x) (hx : x ≤ 256) :
    |(val b : ℝ) - x| ≤ (x + 1) / 2 ^ 24 := by
  have htop : x < magVal 0x7F7FFFFF := by
    rw [magVal_greatest]
    push_cast
    exact hx.trans_lt (by norm_num)
  refine (h.error_le h0 htop).trans ?_
  norm_num
  linarith

/-- The numbers up to 256 are in the range that R14 rounds. -/
theorem abs_lt_of_le_256 {x : ℚ} (hlo : -256 ≤ x) (hhi : x ≤ 256) : |x| < 2 ^ 128 - 2 ^ 103 :=
  (abs_le.2 ⟨hlo, hhi⟩).trans_lt (by norm_num)

/-- A rational up to 256 has a correctly rounded word, of the value that `rne32` gives. -/
theorem exists_rounding {x : ℚ} (hlo : -256 ≤ x) (hhi : x ≤ 256) : ∃ b, IsRNE32 (x : ℝ) b ∧ rne32 x = val b :=
  have ⟨hr, hv⟩ := roundingIsToNearestEven x (abs_lt_of_le_256 hlo hhi)
  ⟨_, hr, hv.symm⟩

/-- A power of a base in (0, 1] has a correctly rounded word, of the value that `powCr` gives. -/
theorem exists_powCr_rounding {x y : ℚ} (hx : 0 < x) (hx1 : x ≤ 1) (hy : 0 < y) :
    ∃ b, IsRNE32 ((x : ℝ) ^ (y : ℝ)) b ∧ powCr x y = val b := by
  have h1 : (x : ℝ) ^ (y : ℝ) ≤ 1 :=
    Real.rpow_le_one (by exact_mod_cast hx.le) (by exact_mod_cast hx1) (by exact_mod_cast hy.le)
  exact powerIsCorrectlyRounded.1 x y hx hy (h1.trans_lt (by norm_num))

/-- `bits32` finds a finite word, but for -0.0, from its value. -/
theorem bits32_val {b : Word} (hb : isFinite b = true) (hbz : b ≠ 0x80000000#32) : bits32 (val b) = b :=
  (binary32ValuesAreKept b hb).2 hbz

theorem IsRNE32.bits32_val {x : ℝ} {b : Word} (h : IsRNE32 x b) : bits32 (val b) = b :=
  Sys2Proof.bits32_val h.1 h.2.1

theorem rne32_le_rne32 {x y : ℚ} (hlo : -256 ≤ x) (hxy : x ≤ y) (hhi : y ≤ 256) : rne32 x ≤ rne32 y :=
  rne32_mono (abs_lt_of_le_256 hlo (by linarith)) (abs_lt_of_le_256 (by linarith) hhi) hxy

theorem rne32_nonneg {x : ℚ} (h : 0 ≤ x) : 0 ≤ rne32 x := by
  rw [rne32, if_neg h.not_gt]
  exact magVal_nonneg _

/-- The absolute error of `rne32` on [0, 256]. -/
theorem rne32_near {x : ℚ} (h0 : 0 ≤ x) (hx : x ≤ 256) : |rne32 x - x| ≤ (x + 1) / 2 ^ 24 := by
  obtain ⟨b, hb, hv⟩ := exists_rounding (by linarith) hx
  rw [hv]
  exact_mod_cast hb.near (by exact_mod_cast h0) (by exact_mod_cast hx)

/-- Reals of [0, 1] that are more than 2^-22 apart round to different values. -/
theorem IsRNE32.val_lt {x y : ℝ} {b c : Word} (hb : IsRNE32 x b) (hc : IsRNE32 y c) (h0 : 0 ≤ x) (h1 : y ≤ 1)
    (hgap : x + 1 / 2 ^ 22 < y) : val b < val c := by
  have hxerr := (abs_le.1 (hb.near h0 (by linarith))).2
  have hyerr := (abs_le.1 (hc.near (by linarith) (by linarith))).1
  have : (val b : ℝ) < val c := by linarith
  exact_mod_cast this

/-- `powCr` keeps the order of bases in (0, 1]. -/
theorem powCr_le_powCr {x x' y : ℚ} (hx : 0 < x) (hxx : x ≤ x') (hx' : x' ≤ 1) (hy : 0 < y) :
    powCr x y ≤ powCr x' y := by
  obtain ⟨b, hb, hv⟩ := exists_powCr_rounding hx (hxx.trans hx') hy
  obtain ⟨c, hc, hv'⟩ := exists_powCr_rounding (hx.trans_le hxx) hx' hy
  rw [hv, hv']
  exact hb.mono hc (Real.rpow_le_rpow (by exact_mod_cast hx.le) (by exact_mod_cast hxx) (by exact_mod_cast hy.le))

/-- The words of [0, 1] are ordered as their values. -/
theorem lt_of_val_lt {b c : Word} (hb : b ≤ 0x3F800000#32) (hc : c ≤ 0x3F800000#32) (h : val b < val c) : b < c := by
  rwa [val_of_lt (Std.lt_of_le_of_lt hb (by decide)), val_of_lt (Std.lt_of_le_of_lt hc (by decide)), magVal_lt_iff,
    ← BitVec.lt_def] at h

end Sys2Proof
end

section
/-! The codec's constants (40_srgb_codec.md R81). -/

namespace Sys2Proof

open Sys2Proof.Machine

/-- Settles O28: the roundings and exact values by computation; a constant's bits are those of the word whose value it
is. -/
theorem codecConstants : Obligations.CodecConstants := by
  refine ⟨⟨?_, bits32_val (by decide) (by decide), ?_⟩, ⟨?_, bits32_val (by decide) (by decide), ?_⟩,
    ⟨?_, bits32_val (by decide) (by decide), ?_⟩, ⟨?_, bits32_val (by decide) (by decide), ?_⟩,
    ⟨?_, bits32_val (by decide) (by decide), ?_⟩, ⟨?_, bits32_val (by decide) (by decide), ?_⟩,
    ⟨?_, ?_, bits32_val (by decide) (by decide), ?_⟩, ?_⟩
  all_goals decide +kernel

/-! What the estimates below need of the constants' exact values. -/

theorem aOff_bounds : 0 < aOff ∧ aOff < 1 / 16 := by decide +kernel
theorem aScl_bounds : 1 < aScl ∧ aScl < 17 / 16 := by decide +kernel
theorem sLin_bounds : 12 < sLin ∧ sLin < 13 := by decide +kernel
theorem gExp_bounds : 2 < gExp ∧ gExp < 3 := by decide +kernel
theorem gExp_real_bounds : (2 : ℝ) < gExp ∧ (gExp : ℝ) < 3 := by exact_mod_cast gExp_bounds
theorem gInv_bounds : 0 < gInv ∧ gInv < 1 := by decide +kernel
theorem gInv_real_bounds : (0 : ℝ) < gInv ∧ (gInv : ℝ) < 1 := by exact_mod_cast gInv_bounds
theorem tEnc_bounds : 0 < tEnc ∧ tEnc < 1 / 256 := by decide +kernel

/-- The two rounded exponents undo each other but for a factor of at most 1 + 2^-24. -/
theorem gExp_mul_gInv_bounds : 1 ≤ gExp * gInv ∧ gExp * gInv ≤ 1 + 1 / 2 ^ 24 := by decide +kernel

theorem gExp_mul_gInv_real_bounds : (1 : ℝ) ≤ gExp * gInv ∧ (gExp : ℝ) * gInv ≤ 1 + 1 / 2 ^ 24 := by
  have h := (Rat.cast_le (K := ℝ)).2 gExp_mul_gInv_bounds.2
  push_cast at h
  exact ⟨by exact_mod_cast gExp_mul_gInv_bounds.1, h⟩

end Sys2Proof
end

section
/-! Decode: the branches, the base of the power, and the results in order (40_srgb_codec.md R83 to R88). -/

namespace Sys2Proof

open Sys2Proof.Machine

/-- The rounded quotient by 255 keeps the order of channels (R83). -/
theorem div32_255_le {u v : Nat} (huv : u ≤ v) (hv : v ≤ 255) : div32 u 255 ≤ div32 v 255 := by
  have huv' : (u : ℚ) ≤ v := by exact_mod_cast huv
  have hv' : (v : ℚ) ≤ 255 := by exact_mod_cast hv
  have hu' : (0 : ℚ) ≤ u / 255 := by positivity
  exact rne32_le_rne32 (by linarith) (by linarith) (by linarith)

theorem div32_255_unit {u : Nat} (hu : u ≤ 255) : 0 ≤ div32 u 255 ∧ div32 u 255 ≤ 1 :=
  div32_unit (by positivity) (by norm_num) (by exact_mod_cast hu)

/-- The threshold lies between the quotients of 10 and 11 (R84). -/
theorem div32_255_lt_tDec {u : Nat} (hu : u ≤ 10) : div32 u 255 < tDec :=
  (div32_255_le hu (by norm_num)).trans_lt (by decide +kernel)

theorem tDec_lt_div32_255 {u : Nat} (hlo : 11 ≤ u) (hu : u ≤ 255) : tDec < div32 u 255 :=
  lt_of_lt_of_le (b := div32 (11 : Nat) 255) (by decide +kernel) (div32_255_le hlo hu)

/-- The base of decode's power for the channel `u` (R86). -/
def decodeBase (u : Nat) : ℚ := div32 (add32 (div32 u 255) aOff) aScl

theorem decodeChannel_linear (pow : ℚ → ℚ → ℚ) {u : Nat} (hu : u ≤ 10) :
    decodeChannel pow u = div32 (div32 u 255) sLin :=
  if_pos (div32_255_lt_tDec hu)

theorem decodeChannel_power (pow : ℚ → ℚ → ℚ) {u : Nat} (hlo : 11 ≤ u) (hu : u ≤ 255) :
    decodeChannel pow u = pow (decodeBase u) gExp :=
  if_neg (tDec_lt_div32_255 hlo hu).not_gt

/-- Settles O29: the quotient is monotone, and the threshold lies between those of 10 and 11. -/
theorem decodeBranchSelect : Obligations.DecodeBranchSelect := by
  refine ⟨fun pow u hu => ?_, fun u hu => ?_, by decide +kernel, by decide +kernel⟩
  · split
    next h => exact decodeChannel_linear pow h
    next h => exact decodeChannel_power pow (by omega) hu
  · rcases Nat.lt_or_ge 10 u with hlt | hle
    · have h := tDec_lt_div32_255 hlt hu
      exact ⟨⟨fun h' => absurd h' h.not_gt, fun h' => by omega⟩, h.ne'⟩
    · have h := div32_255_lt_tDec hle
      exact ⟨⟨fun _ => hle, fun _ => h⟩, h.ne⟩

/-- The base keeps the order of channels (R86). -/
theorem decodeBase_le {u v : Nat} (huv : u ≤ v) (hv : v ≤ 255) : decodeBase u ≤ decodeBase v := by
  obtain ⟨hu0, -⟩ := div32_255_unit (huv.trans hv)
  obtain ⟨-, hv1⟩ := div32_255_unit hv
  obtain ⟨hoff0, hoff1⟩ := aOff_bounds
  obtain ⟨hscl1, hscl2⟩ := aScl_bounds
  have huv' := div32_255_le huv hv
  have hsum : add32 (div32 u 255) aOff ≤ add32 (div32 v 255) aOff :=
    rne32_le_rne32 (by linarith) (by linarith) (by linarith)
  have hsum0 : 0 ≤ add32 (div32 u 255) aOff := rne32_nonneg (by linarith)
  have htop : add32 (div32 v 255) aOff ≤ aScl := by
    have h1 : add32 1 aOff = aScl := by decide +kernel
    rw [← h1]
    exact rne32_le_rne32 (by linarith) (by linarith) (by linarith)
  have hq1 : add32 (div32 v 255) aOff / aScl ≤ 1 := (div_le_one (by linarith)).2 htop
  have hq0 := div_nonneg hsum0 (by linarith : 0 ≤ aScl)
  exact rne32_le_rne32 (by linarith) (div_le_div_of_nonneg_right hsum (by linarith)) (by linarith)

theorem decodeBase_11 : decodeBase 11 = val 0x3DBE81D9#32 := by decide +kernel
theorem decodeBase_255 : decodeBase 255 = 1 := by decide +kernel

/-- The base lies in [1/16, 1] on the power branch. -/
theorem decodeBase_bounds {u : Nat} (hlo : 11 ≤ u) (hu : u ≤ 255) : 1 / 16 ≤ decodeBase u ∧ decodeBase u ≤ 1 :=
  ⟨le_trans (b := decodeBase 11) (by decide +kernel) (decodeBase_le hlo hu), decodeBase_255 ▸ decodeBase_le hu le_rfl⟩

/-- The same bounds in the reals, where the power lives. -/
theorem decodeBase_real_bounds {u : Nat} (hlo : 11 ≤ u) (hu : u ≤ 255) :
    (1 / 16 : ℝ) ≤ decodeBase u ∧ (decodeBase u : ℝ) ≤ 1 := by
  obtain ⟨h0, h1⟩ := decodeBase_bounds hlo hu
  have h0' := (Rat.cast_le (K := ℝ)).2 h0
  push_cast at h0'
  exact ⟨h0', by exact_mod_cast h1⟩

/-- Settles O30: the base is monotone, so its ends and its value at 254, below 1, give the range. -/
theorem decodePowerBase : Obligations.DecodePowerBase := by
  refine ⟨fun pow c => rfl, fun u hlo hu => ⟨?_, ?_, fun h => ?_, ?_⟩, by decide +kernel, by decide +kernel,
    by decide +kernel, by decide +kernel, powerIsCorrectlyRounded.2 _ (by linarith [gExp_bounds])⟩
  · exact decodeBase_11 ▸ decodeBase_le hlo hu
  · rw [val_one]
    exact (decodeBase_bounds hlo hu).2
  · by_contra hne
    have h254 : decodeBase 254 < 1 := by decide +kernel
    exact absurd h ((decodeBase_le (by omega : u ≤ 254) (by norm_num)).trans_lt h254).ne
  · rintro rfl
    exact decodeBase_255

/-- The quotient is one correct rounding (R83). -/
theorem div32_255_rounds {u : Nat} (hu : u ≤ 255) : ∃ c, IsRNE32 ((u : ℝ) / 255) c ∧ div32 u 255 = val c := by
  have hq0 : (0 : ℚ) ≤ u / 255 := by positivity
  have hq1 : (u : ℚ) / 255 ≤ 1 := (div_le_one (by norm_num)).2 (by exact_mod_cast hu)
  obtain ⟨c, hc, hv⟩ := exists_rounding (by linarith) (by linarith : (u : ℚ) / 255 ≤ 256)
  push_cast at hc
  exact ⟨c, hc, hv⟩

/-- On the linear branch decode is one correct rounding of the quotient (R85). -/
theorem decodeChannel_linear_rounds {u : Nat} (hu : u ≤ 10) :
    ∃ r, IsRNE32 ((div32 u 255 : ℝ) / (sLin : ℝ)) r ∧ decodeChannel Config.srgbPow u = val r := by
  obtain ⟨h0, h1⟩ := div32_255_unit (u := u) (by omega)
  obtain ⟨hlin, -⟩ := sLin_bounds
  have hq : div32 u 255 / sLin ≤ 1 := (div_le_one (by linarith)).2 (by linarith)
  have hq0 := div_nonneg h0 (by linarith : 0 ≤ sLin)
  obtain ⟨r, hr, hv⟩ := exists_rounding (by linarith) (by linarith : div32 u 255 / sLin ≤ 256)
  push_cast at hr
  exact ⟨r, hr, (decodeChannel_linear _ hu).trans hv⟩

/-- On the power branch decode is one correct rounding of the real power (R86). -/
theorem decodeChannel_power_rounds {u : Nat} (hlo : 11 ≤ u) (hu : u ≤ 255) :
    ∃ r, IsRNE32 ((decodeBase u : ℝ) ^ (gExp : ℝ)) r ∧ decodeChannel Config.srgbPow u = val r := by
  obtain ⟨h0, h1⟩ := decodeBase_bounds hlo hu
  obtain ⟨r, hr, hv⟩ := exists_powCr_rounding (by linarith) h1 (by linarith [gExp_bounds] : 0 < gExp)
  exact ⟨r, hr, (decodeChannel_power _ hlo hu).trans hv⟩

/-- The two roundings that lead from the quotient to the base of the power (R86). -/
theorem decodeBase_rounds {u : Nat} (hu : u ≤ 255) :
    ∃ a b, IsRNE32 ((div32 u 255 : ℝ) + (aOff : ℝ)) a ∧ IsRNE32 ((val a : ℝ) / (aScl : ℝ)) b ∧
      decodeBase u = val b := by
  obtain ⟨h0, h1⟩ := div32_255_unit hu
  obtain ⟨hoff0, hoff1⟩ := aOff_bounds
  obtain ⟨hscl, -⟩ := aScl_bounds
  obtain ⟨a, ha, hav⟩ := exists_rounding (by linarith) (by linarith : div32 u 255 + aOff ≤ 256)
  have ha0 : 0 ≤ val a := hav ▸ rne32_nonneg (by linarith)
  have ha2 : val a ≤ 2 := by
    have h2 : rne32 2 = 2 := by decide +kernel
    rw [← hav, ← h2]
    exact rne32_le_rne32 (by linarith) (by linarith) (by norm_num)
  have hq : val a / aScl ≤ 2 := (div_le_iff₀ (by linarith)).2 (by linarith)
  have hq0 := div_nonneg ha0 (by linarith : 0 ≤ aScl)
  obtain ⟨b, hb, hbv⟩ := exists_rounding (by linarith) (by linarith : val a / aScl ≤ 256)
  push_cast at ha hb
  exact ⟨a, b, ha, hb, by rw [decodeBase, add32, hav, div32, hbv]⟩

/-- Settles O31: the roundings of the branch that the channel takes. -/
theorem srgb8ToF32IsCorrectlyRounded : Obligations.Srgb8ToF32IsCorrectlyRounded := by
  intro opnd s
  have hu := operandU8_le opnd
  obtain ⟨c, hc, hcv⟩ := div32_255_rounds hu
  refine ⟨_, c, rfl, illFlag_writeIll s.status false, hc, ?_⟩
  rw [answer_result, srgb8ToF32, ← hcv]
  rcases Nat.lt_or_ge 10 (operandU8 opnd) with hlt | hle
  · obtain ⟨a, b, ha, hb, hbv⟩ := decodeBase_rounds hu
    obtain ⟨r, hr, hv⟩ := decodeChannel_power_rounds hlt hu
    rw [hbv] at hr
    rw [hv, hr.bits32_val]
    exact .inr ⟨(tDec_lt_div32_255 hlt hu).le, a, b, ha, hb, hr⟩
  · obtain ⟨r, hr, hv⟩ := decodeChannel_linear_rounds hle
    rw [hv, hr.bits32_val]
    exact .inl ⟨div32_255_lt_tDec hle, hr⟩

/-- The value of the result word of SRGB8_TO_F32 is that of the channel. -/
theorem val_srgb8ToF32 (opnd : Word) :
    val (srgb8ToF32 Config.srgbPow opnd) = decodeChannel Config.srgbPow (operandU8 opnd) := by
  have hu := operandU8_le opnd
  obtain ⟨x, r, hr, hv⟩ : ∃ x r, IsRNE32 x r ∧ decodeChannel Config.srgbPow (operandU8 opnd) = val r := by
    rcases Nat.lt_or_ge 10 (operandU8 opnd) with hlt | hle
    · exact ⟨_, decodeChannel_power_rounds hlt hu⟩
    · exact ⟨_, decodeChannel_linear_rounds hle⟩
  rw [srgb8ToF32, hv, hr.bits32_val]

/-- A result of SRGB8_TO_F32 is a word up to that of 1.0 (R88). -/
theorem srgb8ToF32_le_one (opnd : Word) : srgb8ToF32 Config.srgbPow opnd ≤ 0x3F800000#32 :=
  have ⟨h0, h1⟩ := decodeChannel_unit (operandU8_le opnd)
  bits32_le_one h0 h1

/-- The base of the power, times the divisor, is `u / 255 + 0.055` but for three roundings (R83, R86). -/
theorem decodeBase_near {u : Nat} (hu : u ≤ 255) : |aScl * decodeBase u - (u / 255 + aOff)| ≤ 1 / 2 ^ 20 := by
  obtain ⟨h0, h1⟩ := div32_255_unit hu
  obtain ⟨hoff0, hoff1⟩ := aOff_bounds
  obtain ⟨hscl1, hscl2⟩ := aScl_bounds
  have hq0 : (0 : ℚ) ≤ u / 255 := by positivity
  have hq1 : (u : ℚ) / 255 ≤ 1 := (div_le_one (by norm_num)).2 (by exact_mod_cast hu)
  have hc := abs_le.1 (rne32_near hq0 (by linarith))
  have hs := abs_le.1 (rne32_near (x := div32 u 255 + aOff) (by linarith) (by linarith))
  rw [← div32] at hc
  rw [← add32] at hs
  have hs0 : 0 ≤ add32 (div32 u 255) aOff := rne32_nonneg (by linarith)
  have hs2 : add32 (div32 u 255) aOff ≤ 2 := by linarith
  have hb0 := div_nonneg hs0 (by linarith : 0 ≤ aScl)
  have hb2 : add32 (div32 u 255) aOff / aScl ≤ 2 := (div_le_iff₀ (by linarith)).2 (by linarith)
  have hb := rne32_near hb0 (by linarith)
  rw [← div32, ← decodeBase] at hb
  have hscaled : |aScl * decodeBase u - add32 (div32 u 255) aOff| ≤ 17 / 16 * (3 / 2 ^ 24) := by
    calc |aScl * decodeBase u - add32 (div32 u 255) aOff|
        = aScl * |decodeBase u - add32 (div32 u 255) aOff / aScl| := by
          rw [← abs_of_pos (by linarith : 0 < aScl), ← abs_mul, abs_of_pos (by linarith : 0 < aScl), mul_sub,
            mul_div_cancel₀ _ (by linarith : aScl ≠ 0)]
      _ ≤ 17 / 16 * (3 / 2 ^ 24) := mul_le_mul hscl2.le (hb.trans (by linarith)) (abs_nonneg _) (by norm_num)
  obtain ⟨hlo, hhi⟩ := abs_le.1 hscaled
  exact abs_le.2 ⟨by linarith, by linarith⟩

/-- Neighbouring channels have bases far apart. -/
theorem decodeBase_gap {u : Nat} (hu : u + 1 ≤ 255) : decodeBase u + 1 / 512 ≤ decodeBase (u + 1) := by
  obtain ⟨hscl1, hscl2⟩ := aScl_bounds
  have hlo := (abs_le.1 (decodeBase_near (u := u) (by omega))).2
  have hhi := (abs_le.1 (decodeBase_near hu)).1
  push_cast at hhi
  by_contra hlt
  have hmul := mul_le_mul_of_nonneg_left (not_le.1 hlt).le (by linarith : 0 ≤ aScl)
  linarith

/-- A power with an exponent of [1, 3] keeps a gap between bases of [1/16, 1]. -/
theorem rpow_gap {s t e : ℝ} (hs : 1 / 16 ≤ s) (hst : s + 1 / 512 ≤ t) (ht : t ≤ 1) (he : 1 ≤ e) (he3 : e ≤ 3) :
    s ^ e + 1 / 2 ^ 17 ≤ t ^ e := by
  have factor (x : ℝ) (hx : 1 / 16 ≤ x) : x ^ e = x * x ^ (e - 1) := by
    rw [← Real.rpow_one_add' (by linarith) (by linarith), add_sub_cancel]
  have hlow : 1 / 256 ≤ s ^ (e - 1) :=
    calc (1 / 256 : ℝ) = (1 / 16) ^ 2 := by norm_num
      _ ≤ s ^ 2 := pow_le_pow_left₀ (by norm_num) hs 2
      _ = s ^ (2 : ℝ) := (Real.rpow_natCast s 2).symm
      _ ≤ s ^ (e - 1) := Real.rpow_le_rpow_of_exponent_ge (by linarith) (by linarith) (by linarith)
  have hmono : s ^ (e - 1) ≤ t ^ (e - 1) := Real.rpow_le_rpow (by linarith) (by linarith) (by linarith)
  rw [factor s hs, factor t (by linarith)]
  nlinarith [mul_le_mul_of_nonneg_left hmono (by linarith : 0 ≤ t)]

/-- Each channel decodes to a greater value than the one before it (R88). -/
theorem decodeChannel_lt_succ {u : Nat} (hu : u + 1 ≤ 255) :
    decodeChannel Config.srgbPow u < decodeChannel Config.srgbPow (u + 1) := by
  have low : ∀ k ≤ 10, decodeChannel Config.srgbPow k < decodeChannel Config.srgbPow (k + 1) := by decide +kernel
  rcases Nat.lt_or_ge 10 u with hlt | hle
  · have hlt' : 11 ≤ u + 1 := by omega
    obtain ⟨hb, -⟩ := decodeBase_real_bounds hlt (by omega)
    obtain ⟨hb0, hb1⟩ := decodeBase_real_bounds hlt' hu
    obtain ⟨he, he3⟩ := gExp_real_bounds
    obtain ⟨r, hr, hv⟩ := decodeChannel_power_rounds hlt (by omega)
    obtain ⟨r', hr', hv'⟩ := decodeChannel_power_rounds hlt' hu
    have hstep := (Rat.cast_le (K := ℝ)).2 (decodeBase_gap hu)
    push_cast at hstep
    have hgap := rpow_gap hb hstep hb1 (by linarith) he3.le
    rw [hv, hv']
    exact hr.val_lt hr' (Real.rpow_nonneg (by linarith) _) (Real.rpow_le_one (by linarith) hb1 (by linarith))
      (by linarith)
  · exact low u hle

/-- Decode is strictly increasing (R88). -/
theorem decodeChannel_strictMonoOn : StrictMonoOn (decodeChannel Config.srgbPow) (Set.Iic 255) :=
  strictMonoOn_of_lt_add_one Set.ordConnected_Iic fun _ _ _ hu => decodeChannel_lt_succ hu

/-- The channel of an operand below 256 is the operand (R82). -/
theorem operandU8_ofNat {u : Nat} (hu : u ≤ 255) : operandU8 (BitVec.ofNat 32 u) = u := by
  simp [operandU8]
  omega

/-- Settles O32: the order of the words is that of the values; at 255 the base is 1. -/
theorem decodeStrictlyIncreases : Obligations.DecodeStrictlyIncreases := by
  refine ⟨srgb8ToF32_le_one, fun u v huv hv => ?_, by decide +kernel, ?_, by decide +kernel, by decide +kernel,
    by decide +kernel, by decide +kernel⟩
  · refine lt_of_val_lt (srgb8ToF32_le_one _) (srgb8ToF32_le_one _) ?_
    rw [val_srgb8ToF32, val_srgb8ToF32, operandU8_ofNat (by omega), operandU8_ofNat hv]
    exact decodeChannel_strictMonoOn (Set.mem_Iic.2 (by omega)) (Set.mem_Iic.2 hv) huv
  · have htop : decodeChannel Config.srgbPow (operandU8 0x000000FF#32) = 1 :=
      (decodeChannel_power _ (by decide) (by decide)).trans
        ((congrArg (powCr · gExp) decodeBase_255).trans (powerIsCorrectlyRounded.2 _ (by linarith [gExp_bounds])))
    rw [srgb8ToF32, htop]
    simpa using isRNE32_one.bits32_val

end Sys2Proof
end

section
/-! Encode: the compressed value, the quantiser, and the results in order (40_srgb_codec.md R89 to R95). -/

namespace Sys2Proof

open Sys2Proof.Machine

/-! ## The compressed value -/

theorem compress_linear (pow : ℚ → ℚ → ℚ) {f : ℚ} (h : f ≤ tEnc) : compress pow f = mul32 f sLin := if_pos h

theorem compress_power (pow : ℚ → ℚ → ℚ) {f : ℚ} (h : tEnc < f) : compress pow f = encodePower pow f :=
  if_neg h.not_ge

/-- The product of encode's power branch is at least 0 and at most `aScl` for a power in [0, 1] (R92). -/
theorem mul32_aScl_bounds {p : ℚ} (h0 : 0 ≤ p) (h1 : p ≤ 1) : 0 ≤ mul32 aScl p ∧ mul32 aScl p ≤ aScl := by
  obtain ⟨hscl1, hscl2⟩ := aScl_bounds
  have hprod : 0 ≤ aScl * p := mul_nonneg (by linarith) h0
  have htop : mul32 aScl 1 = aScl := by decide +kernel
  have hmul : aScl * p ≤ aScl * 1 := mul_le_mul_of_nonneg_left h1 (by linarith)
  exact ⟨rne32_nonneg hprod, le_of_le_of_eq (rne32_le_rne32 (by linarith) hmul (by linarith)) htop⟩

/-- On the linear branch the compressed value keeps the order (R91). -/
theorem compress_linear_mono {f g : ℚ} (h0 : 0 ≤ f) (hfg : f ≤ g) (hg : g ≤ tEnc) :
    compress Config.srgbPow f ≤ compress Config.srgbPow g := by
  obtain ⟨hlin0, hlin⟩ := sLin_bounds
  obtain ⟨-, htEnc⟩ := tEnc_bounds
  have hf : 0 ≤ f * sLin := mul_nonneg h0 (by linarith)
  have hmul : f * sLin ≤ g * sLin := mul_le_mul_of_nonneg_right hfg (by linarith)
  have htop : g * sLin ≤ 1 * 13 := mul_le_mul (by linarith) hlin.le (by linarith) (by norm_num)
  rw [compress_linear _ (hfg.trans hg), compress_linear _ hg]
  exact rne32_le_rne32 (by linarith) hmul (by linarith)

/-- On the power branch the compressed value keeps the order: each of its three operations does (R92). -/
theorem compress_power_mono {f g : ℚ} (hf : tEnc < f) (hfg : f ≤ g) (hg : g ≤ 1) :
    compress Config.srgbPow f ≤ compress Config.srgbPow g := by
  obtain ⟨htEnc, -⟩ := tEnc_bounds
  obtain ⟨hinv, -⟩ := gInv_bounds
  obtain ⟨hscl1, hscl2⟩ := aScl_bounds
  obtain ⟨hoff0, hoff1⟩ := aOff_bounds
  have hf0 : 0 < f := htEnc.trans hf
  obtain ⟨hp0, hp1⟩ := powCr_unit hf0 (hfg.trans hg) hinv
  obtain ⟨hq0, hq1⟩ := powCr_unit (hf0.trans_le hfg) hg hinv
  have hpow : powCr f gInv ≤ powCr g gInv := powCr_le_powCr hf0 hfg hg hinv
  obtain ⟨hm0, -⟩ := mul32_aScl_bounds hp0 hp1
  obtain ⟨-, hm1⟩ := mul32_aScl_bounds hq0 hq1
  have hmul : mul32 aScl (powCr f gInv) ≤ mul32 aScl (powCr g gInv) :=
    rne32_le_rne32 (by nlinarith) (mul_le_mul_of_nonneg_left hpow (by linarith)) (by nlinarith)
  rw [compress_power _ hf, compress_power _ (hf.trans_le hfg)]
  change rne32 (mul32 aScl (powCr f gInv) - aOff) ≤ rne32 (mul32 aScl (powCr g gInv) - aOff)
  exact rne32_le_rne32 (by linarith) (sub_le_sub_right hmul _) (by linarith)

/-! The compressed value at 0 and on the two sides of the threshold (R91, R92). -/

theorem compress_zero : compress Config.srgbPow 0 = 0 := by decide +kernel
theorem compress_tEnc : compress Config.srgbPow tEnc = val 0x3D25AED5#32 := by decide +kernel
theorem compress_above_tEnc : compress Config.srgbPow (val 0x3B4D2E1D#32) = val 0x3D25AECE#32 := by decide +kernel

/-- The compressed value at 1 (R92). -/
theorem compress_one : compress Config.srgbPow 1 = val 0x3F7FFFFF#32 := by
  have hpow : Config.srgbPow 1 gInv = 1 := powerIsCorrectlyRounded.2 _ gInv_bounds.1
  have htop : sub32 (mul32 aScl 1) aOff = val 0x3F7FFFFF#32 := by decide +kernel
  rw [compress_power _ (by linarith [tEnc_bounds] : tEnc < 1), encodePower, hpow, htop]

/-- Settles O33, from the values that the words name. -/
theorem encodeAtTheThreshold : Obligations.EncodeAtTheThreshold := by
  refine ⟨compress_zero, ?_, compress_linear _ le_rfl, ?_, powerIsCorrectlyRounded.2 _ gInv_bounds.1, by decide +kernel,
    by decide +kernel, ?_, ?_⟩
  · rw [compress_tEnc, bits32_val (by decide) (by decide)]
  · rw [compress_above_tEnc, bits32_val (by decide) (by decide)]
  · rw [compress_one, bits32_val (by decide) (by decide)]
  · rw [compress_one]
    decide +kernel

/-- Every operand clamps to a magnitude of [0, 1] (R89). -/
theorem clamp01_eq_magVal (b : Word) : ∃ n ≤ 0x3F800000, clamp01 b = magVal n := by
  obtain ⟨neg, n, hn, rfl⟩ := exists_pattern b
  cases hnan : isNaN (pattern neg n) with
  | true => exact ⟨0, by norm_num, by rw [clamp01_of_isNaN hnan, magVal_zero]⟩
  | false =>
    rw [clamp01_of_not_isNaN hnan, val_pattern neg hn]
    cases neg with
    | true =>
      refine ⟨0, by norm_num, ?_⟩
      rw [if_pos rfl, magVal_zero, max_eq_left (min_le_of_right_le (neg_nonpos.2 (magVal_nonneg n)))]
    | false =>
      refine ⟨min 0x3F800000 n, min_le_left _ _, ?_⟩
      rw [if_neg Bool.false_ne_true, magVal_strictMono.monotone.map_min, magVal_one,
        max_eq_right (le_min zero_le_one (magVal_nonneg n))]

/-- The clamp gives a number of [0, 1] (R89). -/
theorem clamp01_unit (b : Word) : 0 ≤ clamp01 b ∧ clamp01 b ≤ 1 := by
  obtain ⟨n, hn, hv⟩ := clamp01_eq_magVal b
  rw [hv, ← magVal_one]
  exact ⟨magVal_nonneg n, magVal_strictMono.monotone hn⟩

/-- No operand clamps to a number between the threshold and the next value (R90). -/
theorem next_le_of_tEnc_lt {b : Word} (h : tEnc < clamp01 b) : val 0x3B4D2E1D#32 ≤ clamp01 b := by
  obtain ⟨n, -, hv⟩ := clamp01_eq_magVal b
  rw [hv] at h ⊢
  rw [tEnc, val_of_lt (by decide), magVal_lt_iff] at h
  rw [val_of_lt (by decide)]
  exact magVal_strictMono.monotone (Nat.succ_le_of_lt h)

theorem tEnc_lt_next : tEnc < val 0x3B4D2E1D#32 := by decide +kernel

/-- Settles O36: each branch is monotone, so its ends bound it. -/
theorem compressedValueRange : Obligations.CompressedValueRange := by
  intro b
  obtain ⟨h0, h1⟩ := clamp01_unit b
  rcases le_or_gt (clamp01 b) tEnc with hle | hgt
  · have hlow := compress_linear_mono le_rfl h0 hle
    have hhigh := compress_linear_mono h0 hle le_rfl
    rw [compress_zero] at hlow
    rw [compress_tEnc] at hhigh
    exact ⟨hlow, hhigh.trans (by decide +kernel)⟩
  · have hlow := compress_power_mono tEnc_lt_next (next_le_of_tEnc_lt hgt) h1
    have hhigh := compress_power_mono hgt h1 le_rfl
    rw [compress_above_tEnc] at hlow
    rw [compress_one] at hhigh
    exact ⟨le_trans (by decide +kernel) hlow, hhigh⟩

/-! ## The quantiser -/

/-- On [0, 1] the clamp of Q8 never acts (R93). -/
theorem q8_eq_floor {c : ℚ} (h0 : 0 ≤ c) (h1 : c ≤ 1) : q8 c = ⌊rne32 (c * 255 + 1 / 2)⌋₊ ∧ q8 c ≤ 255 := by
  have hle : rne32 (c * 255 + 1 / 2) < 256 := by
    have htop : rne32 (1 * 255 + 1 / 2) < 256 := by decide +kernel
    exact (rne32_le_rne32 (by linarith) (by linarith) (by norm_num)).trans_lt htop
  have hfloor : ⌊rne32 (c * 255 + 1 / 2)⌋₊ < 256 :=
    (Nat.floor_lt (rne32_nonneg (by linarith))).2 (by exact_mod_cast hle)
  rw [q8, fma32, trunc_eq_floor, clampNat]
  omega

/-- The quantiser keeps the order on [0, 1] (R95). -/
theorem q8_mono {c d : ℚ} (h0 : 0 ≤ c) (hcd : c ≤ d) (h1 : d ≤ 1) : q8 c ≤ q8 d := by
  obtain ⟨hc, -⟩ := q8_eq_floor h0 (hcd.trans h1)
  obtain ⟨hd, -⟩ := q8_eq_floor (h0.trans hcd) h1
  rw [hc, hd]
  exact Nat.floor_mono (rne32_le_rne32 (by linarith) (by linarith) (by linarith))

/-- Both sides of the threshold quantise to 10 (R95). -/
theorem q8_threshold : q8 (val 0x3D25AED5#32) = 10 ∧ q8 (val 0x3D25AECE#32) = 10 := by decide +kernel

/-- The compressed value of an operand lies in [0, 1]. -/
theorem compress_unit (b : Word) :
    0 ≤ compress Config.srgbPow (clamp01 b) ∧ compress Config.srgbPow (clamp01 b) ≤ 1 := by
  obtain ⟨h0, h1⟩ := compressedValueRange b
  exact ⟨h0, h1.trans (by decide +kernel)⟩

/-- The quantised result keeps the order of the clamped operands, across the threshold too (R95). -/
theorem encode_mono {a b : Word} (h : clamp01 a ≤ clamp01 b) :
    q8 (compress Config.srgbPow (clamp01 a)) ≤ q8 (compress Config.srgbPow (clamp01 b)) := by
  obtain ⟨ha0, -⟩ := clamp01_unit a
  obtain ⟨-, hb1⟩ := clamp01_unit b
  obtain ⟨hca, -⟩ := compress_unit a
  obtain ⟨-, hcb⟩ := compress_unit b
  rcases le_or_gt (clamp01 b) tEnc with hb | hb
  · exact q8_mono hca (compress_linear_mono ha0 h hb) hcb
  rcases le_or_gt (clamp01 a) tEnc with ha | ha
  · have hlow := compress_linear_mono ha0 ha le_rfl
    have hhigh := compress_power_mono tEnc_lt_next (next_le_of_tEnc_lt hb) hb1
    rw [compress_tEnc] at hlow
    rw [compress_above_tEnc] at hhigh
    calc q8 (compress Config.srgbPow (clamp01 a)) ≤ q8 (val 0x3D25AED5#32) := q8_mono hca hlow (by decide +kernel)
      _ = q8 (val 0x3D25AECE#32) := q8_threshold.1.trans q8_threshold.2.symm
      _ ≤ q8 (compress Config.srgbPow (clamp01 b)) := q8_mono (by decide +kernel) hhigh hcb
  · exact q8_mono hca (compress_power_mono ha h hb1) hcb

/-- An 8-bit result word is the word of its number (R66). -/
theorem resultU8_of_le {n : Nat} (h : n ≤ 255) : resultU8 n = BitVec.ofNat 32 n :=
  BitVec.eq_of_toNat_eq (by simp (disch := omega) [resultU8, Nat.mod_eq_of_lt])

theorem f32ToSrgb8_eq (b : Word) :
    f32ToSrgb8 Config.srgbPow b = BitVec.ofNat 32 (q8 (compress Config.srgbPow (clamp01 b))) :=
  have ⟨h0, h1⟩ := compress_unit b
  resultU8_of_le (q8_eq_floor h0 h1).2

/-- Settles O37: the clamp, and then each branch and the quantiser, keep the order. -/
theorem encodeIsMonotone : Obligations.EncodeIsMonotone := by
  intro a b s ha hb hab
  refine ⟨_, _, rfl, rfl, ?_⟩
  have hclamp : clamp01 a ≤ clamp01 b := by
    rw [clamp01_of_not_isNaN ha, clamp01_of_not_isNaN hb]
    exact max_le_max_left 0 (min_le_min_left 1 hab)
  have hle := encode_mono hclamp
  obtain ⟨hb0, hb1⟩ := compress_unit b
  have hmax := (q8_eq_floor hb0 hb1).2
  rw [answer_result, answer_result, f32ToSrgb8_eq, f32ToSrgb8_eq, BitVec.le_def, BitVec.toNat_ofNat, BitVec.toNat_ofNat]
  omega

/-- Settles O35: zeros and ones by the clamp, subnormals by the order up to the least normal number. -/
theorem encodeCornerCases : Obligations.EncodeCornerCases := by
  have hzero : q8 0 = 0 := by decide +kernel
  have result {b : Word} {n : Nat} (h : q8 (compress Config.srgbPow (clamp01 b)) = n) :
      f32ToSrgb8 Config.srgbPow b = BitVec.ofNat 32 n := by rw [f32ToSrgb8_eq, h]
  have clamped {b : Word} (h : clamp01 b = 0) : f32ToSrgb8 Config.srgbPow b = 0x00000000#32 :=
    result (by rw [h, compress_zero, hzero])
  refine ⟨fun b hb => ?_, fun b h1 h2 => ?_, by decide +kernel, by decide +kernel, ?_, by decide +kernel⟩
  · rcases hb with hnan | hneg | hsub
    · exact clamped (clamp01_of_isNaN hnan)
    · exact clamped (clamp01_of_sign hneg)
    · have hnormal : q8 (compress Config.srgbPow (clamp01 0x00800000#32)) = 0 := by decide +kernel
      have hle : b ≤ 0x00800000#32 := BitVec.le_of_lt hsub
      have hclamp : clamp01 b ≤ clamp01 0x00800000#32 := by
        rw [clamp01_of_le_one (BitVec.le_trans hle (by decide)), clamp01_of_le_one (by decide),
          val_of_lt (Std.lt_of_lt_of_le hsub (by decide)), val_of_lt (by decide)]
        exact magVal_strictMono.monotone (BitVec.le_def.1 hle)
      exact result (Nat.le_zero.1 (hnormal ▸ encode_mono hclamp))
  · have hq : q8 (val 0x3F7FFFFF#32) = 255 := by decide +kernel
    exact result (by rw [clamp01_of_one_le h1 h2, compress_one, hq])
  · exact result (by rw [clamp01_of_le_one (by decide), compress_above_tEnc, q8_threshold.2])

end Sys2Proof
end

section
/-! Encode as a chain of correct roundings of real operations (40_srgb_codec.md R89 to R96). -/

namespace Sys2Proof

open Sys2Proof.Machine

/-- On the linear branch the compressed value is one correct rounding of the product (R91). -/
theorem compress_linear_rounds {f : ℚ} (h0 : 0 ≤ f) (hf : f ≤ tEnc) :
    ∃ c, IsRNE32 ((f : ℝ) * (sLin : ℝ)) c ∧ compress Config.srgbPow f = val c := by
  obtain ⟨hlin0, hlin⟩ := sLin_bounds
  obtain ⟨-, htEnc⟩ := tEnc_bounds
  have hprod0 : 0 ≤ f * sLin := mul_nonneg h0 (by linarith)
  have hprod : f * sLin ≤ 1 * 13 := mul_le_mul (by linarith) hlin.le (by linarith) (by norm_num)
  obtain ⟨c, hc, hv⟩ := exists_rounding (by linarith) (by linarith : f * sLin ≤ 256)
  push_cast at hc
  exact ⟨c, hc, (compress_linear _ hf).trans hv⟩

/-- On the power branch it is one correct rounding for each of the three operations (R92). -/
theorem compress_power_rounds {f : ℚ} (hf : tEnc < f) (h1 : f ≤ 1) :
    ∃ c p m, IsRNE32 ((f : ℝ) ^ (gInv : ℝ)) p ∧ IsRNE32 ((aScl : ℝ) * (val p : ℝ)) m ∧
      IsRNE32 ((val m : ℝ) - (aOff : ℝ)) c ∧ compress Config.srgbPow f = val c := by
  obtain ⟨htEnc, -⟩ := tEnc_bounds
  obtain ⟨hinv, -⟩ := gInv_bounds
  obtain ⟨hscl1, hscl2⟩ := aScl_bounds
  obtain ⟨hoff0, hoff1⟩ := aOff_bounds
  obtain ⟨hp0, hp1⟩ := powCr_unit (htEnc.trans hf) h1 hinv
  obtain ⟨p, hp, hpv⟩ := exists_powCr_rounding (htEnc.trans hf) h1 hinv
  rw [hpv] at hp0 hp1
  obtain ⟨m, hm, hmv⟩ := exists_rounding (x := aScl * val p) (by nlinarith) (by nlinarith)
  obtain ⟨hm0, hm1⟩ := mul32_aScl_bounds hp0 hp1
  rw [mul32, hmv] at hm0 hm1
  obtain ⟨c, hc, hcv⟩ := exists_rounding (x := val m - aOff) (by linarith) (by linarith)
  push_cast at hm hc
  refine ⟨c, p, m, hp, hm, hc, ?_⟩
  rw [compress_power _ hf, encodePower, Config.srgbPow, hpv, mul32, hmv, sub32, hcv]

/-- Settles O34: the roundings of the branch that the operand takes, then that of the quantiser. -/
theorem f32ToSrgb8IsCorrectlyRounded : Obligations.F32ToSrgb8IsCorrectlyRounded := by
  intro opnd s
  obtain ⟨h0, h1⟩ := clamp01_unit opnd
  obtain ⟨hc0, hc1⟩ := compress_unit opnd
  obtain ⟨hfloor, hmax⟩ := q8_eq_floor hc0 hc1
  obtain ⟨q, hq, hqv⟩ := exists_rounding
    (x := compress Config.srgbPow (clamp01 opnd) * 255 + 1 / 2) (by linarith) (by linarith)
  push_cast at hq
  rw [hqv] at hfloor
  have hres : (answer s (f32ToSrgb8 Config.srgbPow opnd)).result = BitVec.ofNat 32 ⌊val q⌋₊ := by
    rw [answer_result, f32ToSrgb8_eq, hfloor]
  rw [hfloor] at hmax
  rcases le_or_gt (clamp01 opnd) tEnc with hle | hgt
  · obtain ⟨c, hc, hcv⟩ := compress_linear_rounds h0 hle
    rw [hcv] at hq
    exact ⟨_, c, q, rfl, illFlag_writeIll s.status false, .inl ⟨hle, hc⟩, hq, hres, hmax⟩
  · obtain ⟨c, p, m, hp, hm, hc, hcv⟩ := compress_power_rounds hgt h1
    rw [hcv] at hq
    exact ⟨_, c, q, rfl, illFlag_writeIll s.status false, .inr ⟨hgt, p, m, hp, hm, hc⟩, hq, hres, hmax⟩

end Sys2Proof
end

section
/-! The sRGB round trip (40_srgb_codec.md R95): the errors of decode and encode stay below half a step of the quantiser. -/

namespace Sys2Proof

open Sys2Proof.Machine

/-- The result of decode clamps to its own value (R88, R89). -/
theorem clamp01_srgb8ToF32 (opnd : Word) :
    clamp01 (srgb8ToF32 Config.srgbPow opnd) = decodeChannel Config.srgbPow (operandU8 opnd) := by
  rw [clamp01_of_le_one (srgb8ToF32_le_one opnd), val_srgb8ToF32]

/-- A compressed value near `u / 255` quantises to `u`: the step of the quantiser is 1/255. -/
theorem q8_of_near {c : ℚ} {u : Nat} (h0 : 0 ≤ c) (h1 : c ≤ 1) (h : |c - u / 255| ≤ 1 / 600) : q8 c = u := by
  obtain ⟨hfloor, -⟩ := q8_eq_floor h0 h1
  obtain ⟨hlo, hhi⟩ := abs_le.1 h
  obtain ⟨hrlo, hrhi⟩ := abs_le.1 (rne32_near (x := c * 255 + 1 / 2) (by linarith) (by linarith))
  rw [hfloor, Nat.floor_eq_iff (rne32_nonneg (by linarith))]
  exact ⟨by linarith, by linarith⟩

/-- A power with an exponent of [0, 1] does not widen a relative error. -/
theorem abs_rpow_sub_le {x y g ε : ℝ} (hx : 0 < x) (hε0 : 0 ≤ ε) (hε1 : ε < 1) (hg0 : 0 ≤ g) (hg1 : g ≤ 1)
    (h : |y - x| ≤ ε * x) : |y ^ g - x ^ g| ≤ ε * x ^ g := by
  obtain ⟨hlo, hhi⟩ := abs_le.1 h
  have hlow : (1 - ε) * x ≤ y := by linarith
  have hhigh : y ≤ (1 + ε) * x := by linarith
  have hxg : 0 ≤ x ^ g := Real.rpow_nonneg hx.le g
  have hle : y ^ g ≤ (1 + ε) * x ^ g :=
    calc y ^ g ≤ ((1 + ε) * x) ^ g :=
          Real.rpow_le_rpow ((mul_nonneg (by linarith) hx.le).trans hlow) hhigh hg0
      _ = (1 + ε) ^ g * x ^ g := Real.mul_rpow (by linarith) hx.le
      _ ≤ (1 + ε) * x ^ g := mul_le_mul_of_nonneg_right (Real.rpow_le_self_of_one_le (by linarith) hg1) hxg
  have hge : (1 - ε) * x ^ g ≤ y ^ g :=
    calc (1 - ε) * x ^ g ≤ (1 - ε) ^ g * x ^ g :=
          mul_le_mul_of_nonneg_right (Real.self_le_rpow_of_le_one (by linarith) (by linarith) hg1) hxg
      _ = ((1 - ε) * x) ^ g := (Real.mul_rpow (by linarith) hx.le).symm
      _ ≤ y ^ g := Real.rpow_le_rpow (mul_nonneg (by linarith) hx.le) hlow hg0
  exact abs_le.2 ⟨by linarith, by linarith⟩

/-- A power with an exponent slightly above 1 hardly changes a base of [1/16, 1]. -/
theorem rpow_near_self {t e : ℝ} (h0 : 1 / 16 ≤ t) (h1 : t ≤ 1) (he : 1 ≤ e) (he' : e ≤ 1 + 1 / 2 ^ 24) :
    |t ^ e - t| ≤ 1 / 2 ^ 20 := by
  have ht : 0 < t := by linarith
  have hlog : -15 ≤ Real.log t := by
    have hinv : t⁻¹ ≤ 16 := by rw [inv_le_comm₀ ht (by norm_num)]; linarith
    linarith [Real.one_sub_inv_le_log_of_pos ht]
  have hlow : 1 - 1 / 2 ^ 20 ≤ t ^ (e - 1) := by
    rw [Real.rpow_def_of_pos ht]
    nlinarith [Real.add_one_le_exp (Real.log t * (e - 1))]
  have hhigh : t ^ (e - 1) ≤ 1 := Real.rpow_le_one ht.le h1 (by linarith)
  have hsplit : t ^ e = t * t ^ (e - 1) := by
    rw [← Real.rpow_one_add' ht.le (by linarith), add_sub_cancel]
  rw [hsplit]
  exact abs_le.2 ⟨by nlinarith, by nlinarith⟩

/-- Encode's rounded power undoes decode's (R86, R92). -/
theorem round_rpow_round_rpow {t : ℝ} {r p : Word} (h0 : 1 / 16 ≤ t) (h1 : t ≤ 1) (hr : IsRNE32 (t ^ (gExp : ℝ)) r)
    (hp : IsRNE32 ((val r : ℝ) ^ (gInv : ℝ)) p) : |(val p : ℝ) - t| ≤ 1 / 2 ^ 10 := by
  obtain ⟨hexp, hexp'⟩ := gExp_real_bounds
  obtain ⟨hinv0, hinv1⟩ := gInv_real_bounds
  obtain ⟨hmul, hmul'⟩ := gExp_mul_gInv_real_bounds
  have ht : 0 < t := by linarith
  have hF1 : t ^ (gExp : ℝ) ≤ 1 := Real.rpow_le_one ht.le h1 (by linarith)
  have hF : 1 / 2 ^ 12 ≤ t ^ (gExp : ℝ) :=
    calc (1 / 2 ^ 12 : ℝ) = (1 / 16) ^ 3 := by norm_num
      _ ≤ t ^ 3 := pow_le_pow_left₀ (by norm_num) h0 3
      _ = t ^ (3 : ℝ) := (Real.rpow_natCast t 3).symm
      _ ≤ t ^ (gExp : ℝ) := Real.rpow_le_rpow_of_exponent_ge ht h1 hexp'.le
  have hdecode : |(val r : ℝ) - t ^ (gExp : ℝ)| ≤ 1 / 2 ^ 11 * t ^ (gExp : ℝ) :=
    (hr.near (by linarith) (by linarith)).trans (by linarith)
  have hpow := abs_rpow_sub_le (g := (gInv : ℝ)) (by linarith) (by norm_num) (by norm_num) hinv0.le hinv1.le hdecode
  rw [← Real.rpow_mul ht.le] at hpow
  obtain ⟨hlo, hhi⟩ := abs_le.1 hpow
  obtain ⟨hlo', hhi'⟩ := abs_le.1 (rpow_near_self h0 h1 hmul hmul')
  have hround := hp.near (by linarith) (by linarith)
  obtain ⟨hlo'', hhi''⟩ := abs_le.1 hround
  exact abs_le.2 ⟨by linarith, by linarith⟩

/-- On the power branch the compressed value of the decoded channel is near the channel. -/
theorem compress_decodeChannel_near {u : Nat} (hlo : 11 ≤ u) (hu : u ≤ 255) :
    |compress Config.srgbPow (decodeChannel Config.srgbPow u) - u / 255| ≤ 1 / 600 := by
  obtain ⟨hb0, hb1⟩ := decodeBase_real_bounds hlo hu
  obtain ⟨hscl1, hscl2⟩ := aScl_bounds
  obtain ⟨hoff0, hoff1⟩ := aOff_bounds
  obtain ⟨-, hdec1⟩ := decodeChannel_unit hu
  have habove : tEnc < decodeChannel Config.srgbPow u := by
    have h11 : tEnc < decodeChannel Config.srgbPow 11 := by decide +kernel
    exact h11.trans_le (decodeChannel_strictMonoOn.monotoneOn (Set.mem_Iic.2 (by norm_num)) (Set.mem_Iic.2 hu) hlo)
  obtain ⟨r, hr, hrv⟩ := decodeChannel_power_rounds hlo hu
  have hf0 := tEnc_bounds.1.trans habove
  obtain ⟨p, hp, hpv⟩ := exists_powCr_rounding hf0 hdec1 gInv_bounds.1
  obtain ⟨hp0, hp1⟩ := powCr_unit hf0 hdec1 gInv_bounds.1
  rw [hrv] at hp
  have hnear : |val p - decodeBase u| ≤ 1 / 2 ^ 10 := by
    rw [← Rat.cast_le (K := ℝ)]
    push_cast
    exact round_rpow_round_rpow hb0 hb1 hr hp
  have hscaled : |aScl * val p - aScl * decodeBase u| ≤ 17 / 16 * (1 / 2 ^ 10) := by
    rw [← mul_sub, abs_mul, abs_of_pos (by linarith)]
    exact mul_le_mul hscl2.le hnear (abs_nonneg _) (by norm_num)
  rw [hpv] at hp0 hp1
  have hu11 : (11 : ℚ) / 255 ≤ u / 255 := div_le_div_of_nonneg_right (by exact_mod_cast hlo) (by norm_num)
  obtain ⟨hslo, hshi⟩ := abs_le.1 hscaled
  obtain ⟨hblo, hbhi⟩ := abs_le.1 (decodeBase_near hu)
  obtain ⟨-, hm2⟩ := mul32_aScl_bounds hp0 hp1
  obtain ⟨hmlo, hmhi⟩ := abs_le.1 (rne32_near (x := aScl * val p) (by nlinarith) (by nlinarith))
  rw [← mul32] at hmlo hmhi
  obtain ⟨hclo, hchi⟩ := abs_le.1 (rne32_near (x := mul32 aScl (val p) - aOff) (by linarith) (by linarith))
  have hpv' : Config.srgbPow (decodeChannel Config.srgbPow u) gInv = val p := hpv
  rw [compress_power _ habove, encodePower, hpv', sub32]
  exact abs_le.2 ⟨by linarith, by linarith⟩

/-- Encode undoes decode: on the linear branch by its eleven values, on the power branch by the error bound (R95). -/
theorem q8_compress_decodeChannel {u : Nat} (hu : u ≤ 255) :
    q8 (compress Config.srgbPow (decodeChannel Config.srgbPow u)) = u := by
  have low : ∀ k ≤ 10, q8 (compress Config.srgbPow (decodeChannel Config.srgbPow k)) = k := by decide +kernel
  rcases Nat.lt_or_ge 10 u with hlt | hle
  · have hclamp := clamp01_srgb8ToF32 (BitVec.ofNat 32 u)
    rw [operandU8_ofNat hu] at hclamp
    obtain ⟨h0, h1⟩ := compress_unit (srgb8ToF32 Config.srgbPow (BitVec.ofNat 32 u))
    rw [hclamp] at h0 h1
    exact q8_of_near h0 h1 (compress_decodeChannel_near hlt hu)
  · exact low u hle

/-- F32_TO_SRGB8 undoes SRGB8_TO_F32 (R95). -/
theorem f32ToSrgb8_srgb8ToF32 {u : Nat} (hu : u ≤ 255) :
    f32ToSrgb8 Config.srgbPow (srgb8ToF32 Config.srgbPow (BitVec.ofNat 32 u)) = BitVec.ofNat 32 u := by
  rw [f32ToSrgb8_eq, clamp01_srgb8ToF32, operandU8_ofNat hu, q8_compress_decodeChannel hu]

/-! `respond` on the two commands of the codec (R72). -/

theorem respond_srgb8ToF32 (w : Word) : respond ⟨0x00#8, w⟩ = ⟨srgb8ToF32 Config.srgbPow w, false⟩ := by
  simp [respond, respondWith, rsvField, fmtField]

theorem respond_f32ToSrgb8 (w : Word) : respond ⟨0x01#8, w⟩ = ⟨f32ToSrgb8 Config.srgbPow w, false⟩ := by
  simp [respond, respondWith, rsvField, fmtField]

/-- Settles O38: the two presented requests run the two commands, the second on the RESULT of the first. -/
theorem srgbRoundTripIsExact : Obligations.SrgbRoundTripIsExact := by
  intro s u hs hu hp
  obtain ⟨t, hst, ht, hpt, hres, -⟩ := step_request_responds hs hp
  obtain ⟨v, htv, -, -, rfl⟩ := step_request ht hpt
  rw [operandWord, respond_srgb8ToF32] at hres
  refine ⟨_, (run_succ hst 1).trans (run_succ htv 0), ?_, ?_⟩
  · rw [writeResponse_result, operandWord, hres, respond_f32ToSrgb8, f32ToSrgb8_srgb8ToF32 hu]
  · rw [writeResponse_status, illFlag_writeIll, operandWord, respond_f32ToSrgb8]

end Sys2Proof
end

section
/-! The two forms of Q8 (41_unorm_rescale.md R118): where a rounding first reaches a value, and why the extra rounding of
the product moves no such threshold. -/

namespace Sys2Proof

open Sys2Proof.Machine

/-- The word of [0, 1] at which both forms of Q8 first reach 1: they do there, and not at the word before (R118). This
threshold is computed; those from 2 on are midpoints of one grid, which becomes finer below 1/2. -/
def firstWordToOne : { w : Word // w ≤ 0x3F800000#32 ∧
    (1 ≤ fma32 (val w) 255 (1 / 2) ∧ 1 ≤ add32 (mul32 (val w) 255) (1 / 2)) ∧
    fma32 (val (w - 1)) 255 (1 / 2) < 1 ∧ add32 (mul32 (val (w - 1)) 255) (1 / 2) < 1 } :=
  ⟨0x3B008080#32, by decide +kernel⟩

/-- A value below a magnitude is at most the magnitude before it. -/
theorem val_le_of_lt_succ {b : Word} {n : Nat} (h : val b < magVal (n + 1)) : val b ≤ magVal n := by
  obtain ⟨neg, m, hm, rfl⟩ := exists_pattern b
  rw [val_pattern neg hm] at h ⊢
  cases neg with
  | true =>
    rw [if_pos rfl]
    linarith [magVal_nonneg m, magVal_nonneg n]
  | false =>
    rw [if_neg Bool.false_ne_true] at h ⊢
    exact magVal_strictMono.monotone (Nat.lt_succ_iff.1 (magVal_lt_iff.1 h))

theorem val_pattern_false {n : Nat} (hn : n < 0x80000000) : val (pattern false n) = magVal n := by
  rw [val_pattern false hn, if_neg Bool.false_ne_true]

/-- A rounding reaches an even magnitude exactly from the midpoint below it on: a tie goes to the even one. -/
theorem IsRNE32.magVal_succ_le_iff {x : ℝ} {b : Word} (h : IsRNE32 x b) {n : Nat} (hn : n + 1 < 0x7F800000)
    (hodd : n % 2 = 1) : (magVal (n + 1) : ℝ) ≤ val b ↔ ((magVal n : ℝ) + magVal (n + 1)) / 2 ≤ x := by
  have hstep : (magVal n : ℝ) < magVal (n + 1) := by exact_mod_cast magVal_strictMono n.lt_succ_self
  constructor
  · intro hle
    have := (abs_sub_right_le_iff (hstep.trans_le hle)).1 (h.dist_le_magVal (by omega))
    linarith
  · intro hx
    by_contra hle
    have hlt : val b < magVal (n + 1) := by exact_mod_cast not_le.1 hle
    have hbelow : (val b : ℝ) ≤ magVal n := by exact_mod_cast val_le_of_lt_succ hlt
    have hmid := (abs_sub_left_le_iff (not_le.1 hle)).1 (h.dist_le_magVal hn)
    have hval : val b = magVal n := by exact_mod_cast (by linarith : (val b : ℝ) = magVal n)
    obtain ⟨hfin, hneg, hnear⟩ := h
    have hb : b = pattern false n := val_injective hfin ((isFinite_pattern false (by omega)).2 (by omega)) hneg
      (by simp (disch := omega) [pattern_eq_negZero]) (by rw [hval, val_pattern_false (by omega)])
    have heven : b.getLsbD 0 = false := by
      refine (hnear (pattern false (n + 1)) ((isFinite_pattern false (by omega)).2 hn)).2 ?_ ?_ <;>
        rw [val_pattern_false (by omega)]
      · rw [hval, abs_of_nonpos (by linarith), abs_of_nonneg (by linarith)]
        linarith
      · exact hlt.ne'
    rw [hb, lsb_pattern false (by omega)] at heven
    omega

/-- A rounding reaches an even point of a binade's grid exactly from half a step below it on. -/
theorem IsRNE32.mul_gridStep_le_iff {x : ℝ} {b : Word} (h : IsRNE32 x b) {e m : Nat} (he : e < 253) (hlo : 2 ^ 22 < m)
    (hhi : m ≤ 2 ^ 23) : 2 * m * gridStep e ≤ val b ↔ 2 * m * gridStep e - gridStep e / 2 ≤ x := by
  have hpos : 1 ≤ 2 * m := by omega
  have hreach := h.magVal_succ_le_iff (n := 8388608 * e + (2 * m - 1)) (by omega) (by omega)
  rw [add_assoc, Nat.sub_add_cancel hpos, magVal_grid e (by omega) (by omega),
    magVal_grid e (by omega) (by omega)] at hreach
  push_cast [hpos] at hreach
  rw [hreach]
  constructor <;> intro h <;> linarith

/-- A half-integer between two powers of two is an even point of its binade's grid. -/
theorem exists_half_eq_mul_gridStep {j k : Nat} (hk : k ≤ 8) (hlo : 2 ^ k < j) (hhi : j ≤ 2 ^ (k + 1)) :
    ∃ m : ℕ, 2 ^ 22 < m ∧ m ≤ 2 ^ 23 ∧ (j : ℝ) / 2 = 2 * m * gridStep (125 + k) := by
  have hpow : 2 ^ k * 2 ^ (22 - k) = 2 ^ 22 := by rw [← pow_add, Nat.add_sub_cancel' (by omega)]
  refine ⟨j * 2 ^ (22 - k), ?_, ?_, ?_⟩
  · rw [← hpow]
    exact Nat.mul_lt_mul_of_pos_right hlo (Nat.two_pow_pos _)
  · rw [pow_succ 2 22, ← hpow, mul_right_comm, ← pow_succ]
    exact Nat.mul_le_mul_right _ hhi
  · have hpow' : (2 : ℝ) ^ k * 2 ^ (22 - k) = 2 ^ 22 := by exact_mod_cast hpow
    rw [gridStep, pow_add]
    push_cast
    linear_combination -(j / 2 ^ 23 : ℝ) * hpow'

/-- A rounding reaches a half-integer exactly from half a step of its binade below it on. -/
theorem half_le_rne32_iff {j k : Nat} {x : ℚ} (hk : k ≤ 8) (hlo : 2 ^ k < j) (hhi : j ≤ 2 ^ (k + 1)) (h0 : 0 ≤ x)
    (hx : x ≤ 256) : (j : ℚ) / 2 ≤ rne32 x ↔ (j : ℚ) / 2 - 2 ^ k / 2 ^ 25 ≤ x := by
  obtain ⟨b, hb, hv⟩ := exists_rounding (by linarith) hx
  obtain ⟨m, hm, hm', hj⟩ := exists_half_eq_mul_gridStep hk hlo hhi
  have hreach := hb.mul_gridStep_le_iff (e := 125 + k) (by omega) hm hm'
  have hstep : gridStep (125 + k) / 2 = 2 ^ k / 2 ^ 25 := by
    rw [gridStep, pow_add]
    ring
  rw [← hj, hstep, ← hv] at hreach
  rw [← Rat.cast_le (K := ℝ), ← Rat.cast_le (K := ℝ)]
  push_cast
  exact hreach

/-- Rounding a rounded number changes nothing. -/
theorem rne32_rne32 {x : ℚ} (hlo : -256 ≤ x) (hhi : x ≤ 256) : rne32 (rne32 x) = rne32 x := by
  obtain ⟨b, hb, hv⟩ := exists_rounding hlo hhi
  rw [hv]
  exact (binary32ValuesAreKept b hb.1).1

/-- Rounding a number of [0, 256] adds next to nothing. -/
theorem rne32_le_add {x : ℚ} (h0 : 0 ≤ x) (hx : x ≤ 256) : rne32 x ≤ x + 1 / 2 ^ 15 := by
  linarith [(abs_le.1 (rne32_near h0 hx)).2]

/-- Rounding `x` first does not move the threshold of `x + 1/2` at `n`: the threshold is the midpoint below `n - 1/2`, and
that is also where the rounding of `x` reaches `n - 1/2` (R118). -/
theorem natCast_le_rne32_rne32_iff {n : Nat} {x : ℚ} (hn : 2 ≤ n) (hn' : n ≤ 256) (h0 : 0 ≤ x) (hx : x ≤ 255) :
    (n : ℚ) ≤ rne32 (rne32 x + 1 / 2) ↔ (n : ℚ) ≤ rne32 (x + 1 / 2) := by
  obtain ⟨k, hk, hlo, hhi⟩ : ∃ k ≤ 8, 2 ^ k < 2 * n - 1 ∧ 2 * n ≤ 2 ^ (k + 1) := by
    have hlog : 2 ^ Nat.log 2 (2 * n - 1) ≤ 2 * n - 1 := Nat.pow_log_le_self 2 (by omega)
    have hlog' : 2 * n - 1 < 2 ^ (Nat.log 2 (2 * n - 1) + 1) := Nat.lt_pow_succ_log_self (by norm_num) _
    have hpos : 1 ≤ Nat.log 2 (2 * n - 1) := Nat.log_pos (by norm_num) (by omega)
    have heven : 2 ^ Nat.log 2 (2 * n - 1) % 2 = 0 := Nat.mod_eq_zero_of_dvd (dvd_pow_self 2 (by omega))
    have hlt : Nat.log 2 (2 * n - 1) < 9 := Nat.log_lt_of_lt_pow (by omega) (by omega)
    exact ⟨_, Nat.lt_succ_iff.1 hlt, by omega, by omega⟩
  have hp0 : 0 ≤ rne32 x := rne32_nonneg h0
  have hp := rne32_le_add h0 (by linarith)
  have whole {y : ℚ} (hy0 : 0 ≤ y) (hy : y ≤ 256) : (n : ℚ) ≤ rne32 y ↔ (n : ℚ) - 2 ^ k / 2 ^ 25 ≤ y := by
    simpa using half_le_rne32_iff hk (by omega) hhi hy0 hy
  have half {y : ℚ} (hy0 : 0 ≤ y) (hy : y ≤ 256) :
      (n : ℚ) - 1 / 2 ≤ rne32 y ↔ (n : ℚ) - 1 / 2 - 2 ^ k / 2 ^ 25 ≤ y := by
    have h := half_le_rne32_iff hk hlo (by omega) hy0 hy
    rw [Nat.cast_pred (by omega)] at h
    push_cast at h
    rwa [sub_div, mul_div_cancel_left₀ _ two_ne_zero] at h
  calc (n : ℚ) ≤ rne32 (rne32 x + 1 / 2)
      ↔ (n : ℚ) - 1 / 2 - 2 ^ k / 2 ^ 25 ≤ rne32 x := by
        rw [whole (by linarith) (by linarith)]
        constructor <;> intro h <;> linarith
    _ ↔ (n : ℚ) - 1 / 2 ≤ rne32 x := by rw [← half hp0 (by linarith), rne32_rne32 (by linarith) (by linarith)]
    _ ↔ (n : ℚ) - 1 / 2 - 2 ^ k / 2 ^ 25 ≤ x := half h0 (by linarith)
    _ ↔ (n : ℚ) ≤ rne32 (x + 1 / 2) := by
        rw [whole (by linarith) (by linarith)]
        constructor <;> intro h <;> linarith

/-- The words of [0, 1] have values in their order. -/
theorem val_le_val {b c : Word} (hbc : b ≤ c) (hc : c ≤ 0x3F800000#32) : val b ≤ val c := by
  rw [val_of_lt (Std.lt_of_le_of_lt (BitVec.le_trans hbc hc) (by decide)),
    val_of_lt (Std.lt_of_le_of_lt hc (by decide))]
  exact magVal_strictMono.monotone (BitVec.le_def.1 hbc)

theorem val_unit {b : Word} (h : b ≤ 0x3F800000#32) : 0 ≤ val b ∧ val b ≤ 1 :=
  clamp01_of_le_one h ▸ clamp01_unit b

/-! Both forms of Q8 keep the order on [0, 1]. -/

theorem fused_mono {f g : ℚ} (h0 : 0 ≤ f) (hfg : f ≤ g) (h1 : g ≤ 1) : fma32 f 255 (1 / 2) ≤ fma32 g 255 (1 / 2) :=
  rne32_le_rne32 (by linarith) (by linarith) (by linarith)

theorem twoRounding_mono {f g : ℚ} (h0 : 0 ≤ f) (hfg : f ≤ g) (h1 : g ≤ 1) :
    add32 (mul32 f 255) (1 / 2) ≤ add32 (mul32 g 255) (1 / 2) := by
  have hf : 0 ≤ mul32 f 255 := rne32_nonneg (by linarith)
  have hmul : mul32 f 255 ≤ mul32 g 255 := rne32_le_rne32 (by linarith) (by linarith) (by linarith)
  have hg : mul32 g 255 ≤ g * 255 + 1 / 2 ^ 15 := rne32_le_add (by linarith) (by linarith)
  exact rne32_le_rne32 (by linarith) (by linarith) (by linarith)

/-- The two forms reach 1 together: both keep the order, so `firstWordToOne` decides both. -/
theorem one_le_fused_iff_twoRounding {b : Word} (hb : b ≤ 0x3F800000#32) :
    1 ≤ fma32 (val b) 255 (1 / 2) ↔ 1 ≤ add32 (mul32 (val b) 255) (1 / 2) := by
  obtain ⟨w, hw, ⟨hfused, htwo⟩, hfused', htwo'⟩ := firstWordToOne
  obtain ⟨hb0, hb1⟩ := val_unit hb
  rcases Nat.lt_or_ge b.toNat w.toNat with hlt | hge
  · have hpred : w - 1 ≤ 0x3F800000#32 := by bv_omega
    have hv := val_le_val (by bv_omega : b ≤ w - 1) hpred
    obtain ⟨-, hp1⟩ := val_unit hpred
    exact iff_of_false ((fused_mono hb0 hv hp1).trans_lt hfused').not_ge
      ((twoRounding_mono hb0 hv hp1).trans_lt htwo').not_ge
  · have hv := val_le_val (BitVec.le_def.2 hge) hb
    obtain ⟨hw0, -⟩ := val_unit hw
    exact iff_of_true (hfused.trans (fused_mono hw0 hv hb1)) (htwo.trans (twoRounding_mono hw0 hv hb1))

/-- Settles O46: the two forms reach the same integers. -/
theorem fusedAndTwoRoundingQuantiserAgree : Obligations.FusedAndTwoRoundingQuantiserAgree := by
  intro b hb
  obtain ⟨hb0, hb1⟩ := val_unit hb
  have hp0 : 0 ≤ mul32 (val b) 255 := rne32_nonneg (by linarith)
  have hp : mul32 (val b) 255 ≤ val b * 255 + 1 / 2 ^ 15 := rne32_le_add (by linarith) (by linarith)
  have hfused : fma32 (val b) 255 (1 / 2) ≤ val b * 255 + 1 / 2 + 1 / 2 ^ 15 :=
    rne32_le_add (by linarith) (by linarith)
  have htwo : add32 (mul32 (val b) 255) (1 / 2) ≤ mul32 (val b) 255 + 1 / 2 + 1 / 2 ^ 15 :=
    rne32_le_add (by linarith) (by linarith)
  have hfused0 : 0 ≤ fma32 (val b) 255 (1 / 2) := rne32_nonneg (by linarith)
  have htwo0 : 0 ≤ add32 (mul32 (val b) 255) (1 / 2) := rne32_nonneg (by linarith)
  rw [trunc_eq_floor, trunc_eq_floor]
  refine eq_of_forall_le_iff fun n => ?_
  rw [Nat.le_floor_iff hfused0, Nat.le_floor_iff htwo0]
  rcases Nat.lt_or_ge 256 n with hbig | hn
  · have hbig' : (256 : ℚ) < n := by exact_mod_cast hbig
    exact iff_of_false (by linarith) (by linarith)
  · match n with
    | 0 => exact iff_of_true (by exact_mod_cast hfused0) (by exact_mod_cast htwo0)
    | 1 => exact_mod_cast one_le_fused_iff_twoRounding hb
    | n + 2 => exact (natCast_le_rne32_rne32_iff (by omega) hn (by linarith) (by linarith)).symm

end Sys2Proof
end

section
/-! Words and runs that the rescaler's statements share: result words in order, the quotients into float, and two requests
in a row (30_encoding.md R66, R70; 41_unorm_rescale.md R111 to R114). -/

namespace Sys2Proof

open Sys2Proof.Machine

/-- Numbers below 2^32 are ordered as their words. -/
theorem ofNat_le_ofNat {m n : Nat} (hmn : m ≤ n) (hn : n < 2 ^ 32) : BitVec.ofNat 32 m ≤ BitVec.ofNat 32 n := by
  rw [BitVec.le_def, BitVec.toNat_ofNat, BitVec.toNat_ofNat]
  omega

/-- A 16-bit result word is the word of its number (R66). -/
theorem resultU16_of_le {n : Nat} (h : n ≤ 65535) : resultU16 n = BitVec.ofNat 32 n :=
  BitVec.eq_of_toNat_eq (by simp (disch := omega) [resultU16, Nat.mod_eq_of_lt])

/-- The operand field of an operand below 65536 is the operand (R113). -/
theorem operandU16_ofNat {v : Nat} (hv : v ≤ 65535) : operandU16 (BitVec.ofNat 32 v) = v := by
  simp [operandU16]
  omega

/-- The word of a quotient in [0, 1] is its correctly rounded word. -/
theorem isRNE32_bits32_div32 {a b : ℚ} (ha : 0 ≤ a) (hb : 0 < b) (hab : a ≤ b) :
    IsRNE32 ((a : ℝ) / (b : ℝ)) (bits32 (div32 a b)) := by
  obtain ⟨hr, hv⟩ := roundingIsToNearestEven (a / b)
    (abs_lt_of_le_two (div_nonneg ha hb.le) (((div_le_one hb).2 hab).trans one_le_two))
  rw [div32, ← hv, hr.bits32_val]
  exact_mod_cast hr

/-- The words of different quotients with one divisor up to 65535 are in the order of the numerators (R119). -/
theorem bits32_div32_lt {u v : Nat} {d : ℚ} (huv : u < v) (hv : (v : ℚ) ≤ d) (hd : d ≤ 65535) :
    bits32 (div32 u d) < bits32 (div32 v d) := by
  have huv' : (u : ℚ) + 1 ≤ v := by exact_mod_cast huv
  have hu0 : (0 : ℚ) ≤ u := u.cast_nonneg
  have hd0 : 0 < d := by linarith
  have hgap : (u : ℚ) / d + 1 / 2 ^ 22 < v / d := by
    have hstep : 1 / 2 ^ 22 < 1 / d := one_div_lt_one_div_of_lt hd0 (by linarith)
    have hle : ((u : ℚ) + 1) / d ≤ v / d := div_le_div_of_nonneg_right huv' hd0.le
    rw [add_div] at hle
    linarith
  have hu := div32_unit hu0 hd0 (by linarith)
  have hv' := div32_unit (by linarith) hd0 hv
  refine lt_of_val_lt (bits32_le_one hu.1 hu.2) (bits32_le_one hv'.1 hv'.2) ?_
  refine (isRNE32_bits32_div32 hu0 hd0 (by linarith)).val_lt (isRNE32_bits32_div32 (by linarith) hd0 hv) ?_ ?_ ?_
  · exact_mod_cast div_nonneg hu0 hd0.le
  · exact_mod_cast (div_le_one hd0).2 hv
  · have := (Rat.cast_lt (K := ℝ)).2 hgap
    push_cast at this ⊢
    exact this

/-- Every value is a multiple of 2^-149 (R13). -/
theorem exists_val_eq (b : Word) : ∃ z : ℤ, val b = z / 2 ^ 149 := by
  obtain ⟨neg, n, hn, rfl⟩ := exists_pattern b
  rw [val_pattern neg hn, magVal_eq]
  cases neg with
  | false => exact ⟨magUnits n, by simp⟩
  | true => exact ⟨-magUnits n, by push_cast; rw [if_pos rfl, neg_div]⟩

/-- A proper fraction of 255 is no value: 255 and the powers of 2 are coprime. -/
theorem val_ne_div_255 {u : Nat} (h0 : 0 < u) (hu : u < 255) (b : Word) : val b ≠ u / 255 := by
  intro h
  obtain ⟨z, hz⟩ := exists_val_eq b
  rw [hz, div_eq_div_iff (by norm_num) (by norm_num)] at h
  have hmul : z * 255 = u * 2 ^ 149 := by exact_mod_cast h
  have hcop : IsCoprime (255 : ℤ) (2 ^ 149) := IsCoprime.pow_right (by norm_num)
  have hdvd : (255 : ℤ) ∣ u := hcop.dvd_of_dvd_mul_right ⟨z, by rw [← hmul, mul_comm]⟩
  exact absurd (Nat.le_of_dvd h0 (by exact_mod_cast hdvd)) hu.not_ge

/-- Two presented requests, the second on the RESULT of the first (R70): RESULT and ILL are the second response's. -/
theorem run_two_requests {s : State} {c d : Byte} {w : Word} (hs : Ready s)
    (hp : s.pending = [.request c (.word w), .request d .lastResult]) :
    ∃ t, run 2 s = .next t ∧ t.result = (respond ⟨d, (respond ⟨c, w⟩).result⟩).result ∧
      illFlag t.status = (respond ⟨d, (respond ⟨c, w⟩).result⟩).ill := by
  obtain ⟨t, hst, ht, hpt, hres, -⟩ := step_request_responds hs hp
  obtain ⟨u, htu, -, -, rfl⟩ := step_request ht hpt
  have hop : operandWord t .lastResult = (respond ⟨c, w⟩).result := hres
  exact ⟨_, (run_succ hst 1).trans (run_succ htu 0), by rw [writeResponse_result, hop],
    by rw [writeResponse_status, illFlag_writeIll, hop]⟩

/-! `respond` on the four commands of the rescaler (R72). -/

theorem respond_unorm8ToF32 (w : Word) : respond ⟨0x02#8, w⟩ = ⟨unorm8ToF32 w, false⟩ := by
  simp [respond, respondWith, rsvField, fmtField]

theorem respond_f32ToUnorm8 (w : Word) : respond ⟨0x03#8, w⟩ = ⟨f32ToUnorm8 w, false⟩ := by
  simp [respond, respondWith, rsvField, fmtField]

theorem respond_unorm16ToF32 (w : Word) : respond ⟨0x04#8, w⟩ = ⟨unorm16ToF32 w, false⟩ := by
  simp [respond, respondWith, rsvField, fmtField]

theorem respond_f32ToUnorm16 (w : Word) : respond ⟨0x05#8, w⟩ = ⟨f32ToUnorm16 w, false⟩ := by
  simp [respond, respondWith, rsvField, fmtField]

end Sys2Proof
end

section
/-! The rescaler's four commands (41_unorm_rescale.md R111 to R119). -/

namespace Sys2Proof

open Sys2Proof.Machine

/-! ## Into float -/

/-- UNORM8_TO_F32 rounds the quotient once (R111). -/
theorem isRNE32_unorm8ToF32 (opnd : Word) : IsRNE32 ((operandU8 opnd : ℝ) / 255) (unorm8ToF32 opnd) := by
  simpa [unorm8ToF32] using isRNE32_bits32_div32 (operandU8 opnd).cast_nonneg (by norm_num : (0 : ℚ) < 255)
    (by exact_mod_cast operandU8_le opnd)

/-- UNORM16_TO_F32 rounds the quotient once (R113). -/
theorem isRNE32_unorm16ToF32 (opnd : Word) : IsRNE32 ((operandU16 opnd : ℝ) / 65535) (unorm16ToF32 opnd) := by
  simpa [unorm16ToF32] using isRNE32_bits32_div32 (operandU16 opnd).cast_nonneg (by norm_num : (0 : ℚ) < 65535)
    (by exact_mod_cast operandU16_le opnd)

/-- Settles O39: one rounding of the quotient, which is no value strictly between 0 and 255; the listed words by
computation. -/
theorem unorm8ToF32RoundsTheQuotient : Obligations.Unorm8ToF32RoundsTheQuotient := by
  refine ⟨fun opnd => by rw [encode_unorm8ToF32], fun opnd s => ⟨_, rfl, isRNE32_unorm8ToF32 opnd,
    illFlag_writeIll s.status false, rfl⟩, fun u h0 hu h => ?_, ?_⟩
  · rw [← Rat.cast_natCast u, ← Rat.cast_ofNat 255, ← Rat.cast_div, Rat.cast_inj] at h
    exact val_ne_div_255 h0 hu _ h
  · decide +kernel

/-- Settles O41: one rounding of the quotient; the listed words by computation. -/
theorem unorm16ToF32RoundsTheQuotient : Obligations.Unorm16ToF32RoundsTheQuotient := by
  refine ⟨fun opnd => by rw [encode_unorm16ToF32], fun opnd s => ⟨_, rfl, isRNE32_unorm16ToF32 opnd,
    illFlag_writeIll s.status false, rfl⟩, ?_⟩
  decide +kernel

/-! ## Out of float -/

/-- The result word of F32_TO_UNORM8: the saturation never acts (R112, R93). -/
theorem f32ToUnorm8_eq (b : Word) : f32ToUnorm8 b = BitVec.ofNat 32 (q8 (clamp01 b)) :=
  have ⟨h0, h1⟩ := clamp01_unit b
  resultU8_of_le (q8_eq_floor h0 h1).2

theorem q8_zero : q8 0 = 0 := q8_of_near le_rfl zero_le_one (by norm_num)
theorem q8_one : q8 1 = 255 := q8_of_near zero_le_one le_rfl (by norm_num)

/-- Settles O40: Q8 of the clamped operand is the floor of one rounding; corners by the clamp. -/
theorem f32ToUnorm8RoundsOnce : Obligations.F32ToUnorm8RoundsOnce := by
  refine ⟨fun opnd => by rw [encode_f32ToUnorm8], fun opnd s => ?_, fun b hb => ?_, fun b h1 h2 => ?_, ?_⟩
  · obtain ⟨h0, h1⟩ := clamp01_unit opnd
    obtain ⟨hfloor, hmax⟩ := q8_eq_floor h0 h1
    obtain ⟨q, hq, hqv⟩ := exists_rounding (x := clamp01 opnd * 255 + 1 / 2) (by linarith) (by linarith)
    push_cast at hq
    rw [hqv] at hfloor
    rw [hfloor] at hmax
    exact ⟨_, q, rfl, hq, by rw [answer_result, f32ToUnorm8_eq, hfloor], hmax, illFlag_writeIll s.status false, rfl⟩
  · rw [f32ToUnorm8_eq, hb.elim clamp01_of_isNaN clamp01_of_sign, q8_zero]
  · rw [f32ToUnorm8_eq, clamp01_of_one_le h1 h2, q8_one]
  · decide +kernel

/-- The product by 65535 of a number of [0, 1] is in the range that R14 rounds. -/
theorem abs_mul_65535_lt {f : ℚ} (h0 : 0 ≤ f) (h1 : f ≤ 1) : |f * 65535| < 2 ^ 128 - 2 ^ 103 := by
  rw [abs_of_nonneg (by linarith)]
  linarith

/-- The rounded product by 65535 keeps the order on [0, 1] (R119). -/
theorem mul32_65535_mono {f g : ℚ} (h0 : 0 ≤ f) (hfg : f ≤ g) (h1 : g ≤ 1) : mul32 f 65535 ≤ mul32 g 65535 :=
  rne32_mono (abs_mul_65535_lt h0 (hfg.trans h1)) (abs_mul_65535_lt (h0.trans hfg) h1) (by linarith)

theorem rne32_zero : rne32 0 = 0 := by simpa using (binary32ValuesAreKept 0x00000000#32 (by decide)).1
theorem rne32_one : rne32 1 = 1 := by simpa using (binary32ValuesAreKept 0x3F800000#32 (by decide)).1

theorem mul32_zero_65535 : mul32 0 65535 = 0 := by rw [mul32, zero_mul, rne32_zero]

theorem mul32_one_65535 : mul32 1 65535 = 65535 := by
  simpa [div32, rne32_one] using mul32_div32_unorm16 le_rfl

theorem floor_mul32_65535_le {f : ℚ} (h0 : 0 ≤ f) (h1 : f ≤ 1) : ⌊mul32 f 65535⌋₊ ≤ 65535 :=
  Nat.floor_le_of_le (by simpa [mul32_one_65535] using mul32_65535_mono h0 h1 le_rfl)

/-- The result word of F32_TO_UNORM16: the saturation never acts (R114). -/
theorem f32ToUnorm16_eq (b : Word) : f32ToUnorm16 b = BitVec.ofNat 32 ⌊mul32 (clamp01 b) 65535⌋₊ := by
  obtain ⟨h0, h1⟩ := clamp01_unit b
  have hmax := floor_mul32_65535_le h0 h1
  rw [f32ToUnorm16, trunc_eq_floor, clampNat, Nat.zero_max, min_eq_right hmax, resultU16_of_le hmax]

/-- Settles O42: the clamped operand's product, rounded once; corners by the clamp. -/
theorem f32ToUnorm16TruncatesTheRoundedProduct : Obligations.F32ToUnorm16TruncatesTheRoundedProduct := by
  refine ⟨fun opnd => by rw [encode_f32ToUnorm16], fun opnd s => ?_, fun b hb => ?_, fun b h1 h2 => ?_, ?_⟩
  · obtain ⟨h0, h1⟩ := clamp01_unit opnd
    obtain ⟨hp, hpv⟩ := roundingIsToNearestEven _ (abs_mul_65535_lt h0 h1)
    have hmax := floor_mul32_65535_le h0 h1
    rw [mul32, ← hpv] at hmax
    push_cast at hp
    exact ⟨_, _, rfl, hp, by rw [answer_result, f32ToUnorm16_eq, mul32, hpv], hmax,
      illFlag_writeIll s.status false, rfl⟩
  · rw [f32ToUnorm16_eq, hb.elim clamp01_of_isNaN clamp01_of_sign, mul32_zero_65535, Nat.floor_zero]
  · rw [f32ToUnorm16_eq, clamp01_of_one_le h1 h2, mul32_one_65535, Nat.floor_ofNat]
  · decide +kernel

/-- Settles O45: distinct quotients are far apart, and out of float each operation keeps the order. -/
theorem rescalerIsMonotone : Obligations.RescalerIsMonotone := by
  refine ⟨fun a b hab => ?_, fun a b hab => ?_, fun a b hab => ?_, fun a b hab => ?_⟩
  · exact bits32_div32_lt hab (by exact_mod_cast operandU8_le b) (by norm_num)
  · exact bits32_div32_lt hab (by exact_mod_cast operandU16_le b) le_rfl
  · obtain ⟨ha0, -⟩ := clamp01_unit a
    obtain ⟨hb0, hb1⟩ := clamp01_unit b
    rw [f32ToUnorm8_eq, f32ToUnorm8_eq]
    exact ofNat_le_ofNat (q8_mono ha0 hab hb1) ((q8_eq_floor hb0 hb1).2.trans_lt (by norm_num))
  · obtain ⟨ha0, -⟩ := clamp01_unit a
    obtain ⟨hb0, hb1⟩ := clamp01_unit b
    rw [f32ToUnorm16_eq, f32ToUnorm16_eq]
    exact ofNat_le_ofNat (Nat.floor_mono (mul32_65535_mono ha0 hab hb1))
      ((floor_mul32_65535_le hb0 hb1).trans_lt (by norm_num))

/-! ## Round trips (R116) -/

/-- F32_TO_UNORM8 undoes UNORM8_TO_F32: the two roundings move the channel by less than half a step of Q8. -/
theorem f32ToUnorm8_unorm8ToF32 {u : Nat} (hu : u ≤ 255) :
    f32ToUnorm8 (unorm8ToF32 (BitVec.ofNat 32 u)) = BitVec.ofNat 32 u := by
  have hu' : (u : ℚ) ≤ 255 := by exact_mod_cast hu
  have hu0 : (0 : ℚ) ≤ u := u.cast_nonneg
  obtain ⟨h0, h1⟩ := div32_255_unit hu
  have hnear := rne32_near (x := (u : ℚ) / 255) (by positivity) (by linarith)
  rw [← div32] at hnear
  rw [f32ToUnorm8_eq, unorm8ToF32, operandU8_ofNat hu, clamp01_bits32_div32 hu0 (by norm_num) hu',
    q8_of_near h0 h1 (hnear.trans (by linarith))]

/-- F32_TO_UNORM16 undoes UNORM16_TO_F32: the product's rounding undoes the quotient's. -/
theorem f32ToUnorm16_unorm16ToF32 {v : Nat} (hv : v ≤ 65535) :
    f32ToUnorm16 (unorm16ToF32 (BitVec.ofNat 32 v)) = BitVec.ofNat 32 v := by
  rw [f32ToUnorm16_eq, unorm16ToF32, operandU16_ofNat hv,
    clamp01_bits32_div32 v.cast_nonneg (by norm_num) (by exact_mod_cast hv), mul32_div32_unorm16 hv, Nat.floor_natCast]

/-- Settles O43: the two presented requests run the two commands, the second on the RESULT of the first. -/
theorem unorm8RoundTripIsExact : Obligations.Unorm8RoundTripIsExact := by
  intro s u hs hu hp
  simpa only [respond_unorm8ToF32, respond_f32ToUnorm8, f32ToUnorm8_unorm8ToF32 hu] using run_two_requests hs hp

/-- Settles O44: the two presented requests run the two commands, the second on the RESULT of the first. -/
theorem unorm16RoundTripIsExact : Obligations.Unorm16RoundTripIsExact := by
  intro s v hs hv hp
  simpa only [respond_unorm16ToF32, respond_f32ToUnorm16, f32ToUnorm16_unorm16ToF32 hv] using run_two_requests hs hp

end Sys2Proof
end

section
/-! The IllegalCommand exception: what it writes and the request after it, and how the fault mark grows
(60_exceptions.md R141, R143; 10_state.md R23, R31). -/

namespace Sys2Proof

open Sys2Proof.Machine

/-! ## The response (R141) -/

/-- Performing an illegal request raises the exception. -/
theorem perform_illegal {r : Request} (h : cmdLegal r.cmd = false) (s : State) :
    perform r s = .next (raiseIllegalCommand r.cmd s) := by
  rw [perform, decode_illegal r.cmd h r.opnd]

/-- A ready block raises the exception for a presented illegal request, whatever its operand. -/
theorem step_presented_illegal {s : State} {cmd : Byte} {o : HostOperand} {rest : List HostMove} (hs : Ready s)
    (hp : s.pending = .request cmd o :: rest) (hill : cmdLegal cmd = false) :
    step s = .next (raiseIllegalCommand cmd (fillOperand { s with pending := rest } o)) := by
  rw [step_presented hs hp, perform_illegal hill]

/-- A presented request with an operand word, in a ready block: RESULT is that of `respond`, and ILL the legality of the
command byte. -/
theorem step_request_registers {s : State} {cmd : Byte} {w : Word} {rest : List HostMove} (hs : Ready s)
    (hp : s.pending = .request cmd (.word w) :: rest) :
    ∃ t, step s = .next t ∧ t.result = (respond ⟨cmd, w⟩).result ∧ illFlag t.status = !cmdLegal cmd := by
  obtain ⟨t, ht, hill, -, rfl⟩ := step_request hs hp
  exact ⟨_, ht, rfl, (illFlag_writeIll s.status _).trans hill⟩

/-- Settles O17: the step raises the exception, and the state it leaves is ready for the next request. -/
theorem illegalCommandResponse : Obligations.IllegalCommandResponse := by
  intro s cmd o rest hs hp hill
  have ⟨hreset, hflight⟩ := hs
  refine ⟨_, step_presented_illegal hs hp hill, rfl, illFlag_writeIll s.status true, writeIll_reserved s.status true,
    hflight, hreset, rfl, rfl, fun cmd' w rest' hrest => ?_⟩
  obtain ⟨u, hu, hresult, hflag⟩ := step_request_registers
    (s := raiseIllegalCommand cmd (fillOperand { s with pending := rest } o)) ⟨hreset, hflight⟩ hrest
  exact ⟨u, hu, hresult, fun hlegal => by rw [hflag, hlegal, Bool.not_true]⟩

/-! ## The fault mark (R143) -/

/-- From `s` to `t` the mark is kept, with at most one response and that one legal, or it gains the entry of the one
illegal response written. -/
def MarkStep (s t : State) : Prop :=
  t.faultMark = s.faultMark ∧ (t.responses = s.responses ∨ ∃ w, t.responses = s.responses ++ [⟨w, false⟩]) ∨
  ∃ cmd, cmdLegal cmd = false ∧ t.faultMark = s.faultMark ++ [.illegalCommand s.index cmd] ∧
    t.responses = s.responses ++ [⟨0#32, true⟩]

/-- Without a response the mark is kept. -/
theorem MarkStep.quiet {s t : State} (hmark : t.faultMark = s.faultMark) (hresp : t.responses = s.responses) :
    MarkStep s t :=
  .inl ⟨hmark, .inl hresp⟩

/-- A response adds its entry exactly when it is illegal. -/
theorem MarkStep.performed {r : Request} {s t : State} {result : Word} {ill : Bool}
    (hp : Performed r s t result ill) : MarkStep s t := by
  obtain ⟨hill, hzero, rfl⟩ := hp
  cases ill with
  | false => exact .inl ⟨List.append_nil _, .inr ⟨result, rfl⟩⟩
  | true =>
    obtain rfl := hzero rfl
    exact .inr ⟨r.cmd, by simpa using hill, rfl, rfl⟩

/-- Every step treats the mark so: only an answered request can add to it. -/
theorem step_markStep {s t : State} (hstep : step s = .next t) : MarkStep s t := by
  cases stepCase_of_step hstep with
  | idle _ _ ht => exact ht ▸ .quiet rfl rfl
  | reset _ _ ht => exact ht ▸ .quiet rfl rfl
  | release _ _ _ ht => exact ht ▸ .quiet rfl rfl
  | readResult _ _ ht => exact ht ▸ .quiet rfl rfl
  | readStatus _ _ ht => exact ht ▸ .quiet rfl rfl
  | dropped _ _ _ _ _ ht => exact ht ▸ .quiet rfl rfl
  | launched _ _ _ _ _ _ ht => exact ht ▸ .quiet rfl rfl
  | answered _ _ _ _ _ _ _ _ hp => exact (MarkStep.performed hp :)
  | completed _ _ _ _ hp => exact (MarkStep.performed hp :)

/-- No entry is removed. -/
theorem MarkStep.mark_isPrefix {s t : State} (h : MarkStep s t) : s.faultMark <+: t.faultMark := by
  rcases h with ⟨hmark, -⟩ | ⟨cmd, -, hmark, -⟩
  · rw [hmark]
  · exact ⟨_, hmark.symm⟩

/-- No run removes an entry. -/
theorem run_mark_isPrefix {n : Nat} {s t : State} (h : run n s = .next t) : s.faultMark <+: t.faultMark := by
  obtain ⟨u, hu, hkept⟩ := run_keeps (P := fun u => s.faultMark <+: u.faultMark)
    (fun _ _ hs hstep => hs.trans (step_markStep hstep).mark_isPrefix) n List.prefix_rfl
  rw [h] at hu
  cases hu
  exact hkept

/-- Settles O18: `step_markStep` for every step, the exception for an illegal request, `run_mark_isPrefix` for runs. -/
theorem faultMarkRecordsEveryIllegalRequest : Obligations.FaultMarkRecordsEveryIllegalRequest := by
  refine ⟨rfl, fun s t hstep => step_markStep hstep, fun s cmd o rest hs hp hill => ?_,
    fun s r hf hill hnext => ?_, fun n s t hrun => run_mark_isPrefix hrun⟩
  · exact ⟨_, step_presented_illegal hs hp hill, rfl⟩
  · exact ⟨_, (step_inFlight hf hnext).trans (perform_illegal hill _), rfl⟩

end Sys2Proof
end

section
/-! Reset and the hazards of a request in flight: what reset discards, and that every accepted request is answered or
discarded (70_reset_and_hazards.md R160, R167; 60_exceptions.md R145). -/

namespace Sys2Proof

open Sys2Proof.Machine

/-- A move that presents a request while reset is asserted leaves the stream and does nothing else (R160). -/
theorem step_presented_inReset {s : State} {m : HostMove} {rest : List HostMove} (hr : s.inReset = true)
    (hf : s.inFlight = none) (hm : isPresented m = true) (hp : s.pending = m :: rest) :
    step s = .next { s with pending := rest } := by
  rw [step_takes_move hf hp]
  cases m with
  | request cmd o => exact if_pos hr
  | launch cmd o => exact if_pos hr
  | readResult | readStatus | assertReset | releaseReset => cases hm

/-- Settles O5: an asserted reset, a request presented during it and its release are each one step. -/
theorem resetDiscardsRequests : Obligations.ResetDiscardsRequests := by
  refine ⟨fun s rest hp => ?_, fun s cmd o rest hr hf hp => ?_, fun s rest hf hp => ?_⟩
  · exact ⟨_, step_assertReset hp, rfl, rfl, rfl, rfl, rfl, rfl, rfl, rfl, rfl⟩
  · rcases hp with hp | hp
    · exact step_presented_inReset hr hf rfl hp
    · exact step_presented_inReset hr hf rfl hp
  · exact ⟨_, step_takes_move hf hp, ⟨rfl, hf⟩, rfl, rfl, rfl, rfl, rfl⟩

/-- From `s` to `t` the request `r` in flight has had its one response, or reset has discarded it with none (R160,
R167). -/
def Settled (r : Request) (s t : State) : Prop :=
  t.inFlight = none ∧
    (t.responses = s.responses ++ [respond r] ∨ (t.inReset = true ∧ t.responses = s.responses))

/-- Unless the host reads next, one step answers the request in flight or discards it. -/
theorem step_settles {s : State} {r : Request} (hf : s.inFlight = some r)
    (hnext : ∀ m rest, s.pending = m :: rest → isRead m = false) : ∃ t, step s = .next t ∧ Settled r s t := by
  by_cases hreset : ∃ rest, s.pending = .assertReset :: rest
  · obtain ⟨rest, hp⟩ := hreset
    exact ⟨_, step_assertReset hp, rfl, .inr ⟨rfl, rfl⟩⟩
  · obtain ⟨t, ht, -, -, rfl⟩ := perform_respond r { s with inFlight := none }
    have hstep := step_inFlight hf fun m rest hp =>
      ⟨hnext m rest hp, fun hm => hreset ⟨rest, hm ▸ hp⟩⟩
    exact ⟨_, hstep.trans ht, rfl, .inl rfl⟩

/-- A stream is the host's reads up to its first other move, and the moves from that one on. -/
theorem exists_reads_append (ms : List HostMove) :
    ∃ reads rest, ms = reads ++ rest ∧ reads.all isRead = true ∧ ∀ m rest', rest = m :: rest' → isRead m = false := by
  refine ⟨ms.takeWhile isRead, ms.dropWhile isRead, List.takeWhile_append_dropWhile.symm, List.all_takeWhile,
    fun m rest' hrest => ?_⟩
  have hhead := List.head?_dropWhile_not isRead ms
  rwa [hrest] at hhead

/-- Settles O14: the host's reads are made first (`run_reads`), and the next step settles the request. -/
theorem everyAcceptedRequestIsAnswered : Obligations.EveryAcceptedRequestIsAnswered := by
  refine ⟨fun s => ?_, fun s r hf => ?_⟩
  · obtain ⟨t, ht, -⟩ := step_cases s
    exact ⟨t, ht⟩
  · obtain ⟨reads, rest, hp, hreads, hrest⟩ := exists_reads_append s.pending
    obtain ⟨t, ht, hsettled⟩ :=
      step_settles (s := { s with pending := rest, reads := s.reads ++ reads.map (hostRead s) }) hf hrest
    refine ⟨1 + reads.length, t, ?_, (run_reads hreads 1 hp).trans (run_succ ht 0), hsettled⟩
    rw [hp, List.length_append]
    omega

end Sys2Proof
end

section
/-! A run of a stream of requests: one response for each, in order (70_reset_and_hazards.md R168; 20_memory.md R48). -/

namespace Sys2Proof

open Sys2Proof.Machine

/-- A run is made longer by one step at its end. -/
theorem run_snoc {n : Nat} {s t u : State} (hrun : run n s = .next t) (hstep : step t = .next u) :
    run (n + 1) s = .next u := by
  induction n generalizing s with
  | zero =>
    cases hrun
    exact run_succ hstep 0
  | succ n ih =>
    obtain ⟨v, hv, -⟩ := step_cases s
    rw [run_succ hv] at hrun ⊢
    exact ih hrun

/-- One more request adds its entry, with its index, to the mark exactly when it is illegal (R143). -/
theorem expectedMark_append (rs : List Request) (r : Request) :
    expectedMark (rs ++ [r]) =
      expectedMark rs ++ if !cmdLegal r.cmd then [.illegalCommand rs.length r.cmd] else [] := by
  cases h : cmdLegal r.cmd <;> simp [expectedMark, List.zipIdx_append, h]

/-- The state in which a run from reset has answered the requests `rs` and the moves `rest` are still to come. -/
structure AnsweredInOrder (rs : List Request) (rest : List HostMove) (t : State) : Prop where
  ready : Ready t
  pending : t.pending = rest
  responses : t.responses = rs.map respond
  index : t.index = rs.length
  faultMark : t.faultMark = expectedMark rs
  registers : ∀ r, rs.getLast? = some r → t.result = (respond r).result ∧ illFlag t.status = (respond r).ill

/-- The next request of the stream is answered in its turn. -/
theorem AnsweredInOrder.snoc {rs : List Request} {r : Request} {rest : List HostMove} {t : State}
    (h : AnsweredInOrder rs (.request r.cmd (.word r.opnd) :: rest) t) :
    ∃ u, step t = .next u ∧ AnsweredInOrder (rs ++ [r]) rest u := by
  obtain ⟨u, hu, hill, -, rfl⟩ := step_request h.ready h.pending
  refine ⟨_, hu, { ready := h.ready, pending := rfl, responses := ?_, index := ?_, faultMark := ?_, registers := ?_ }⟩
  · rw [List.map_append, ← h.responses]
    rfl
  · rw [List.length_append, ← h.index]
    rfl
  · rw [expectedMark_append, ← h.faultMark, ← h.index, ← hill]
    rfl
  · intro q hq
    obtain rfl : r = q := by simpa using hq
    exact ⟨rfl, illFlag_writeIll _ _⟩

/-- From reset as many steps as requests answer them all, whatever moves follow; by induction, the last request last. -/
theorem run_streamOf (rs : List Request) (rest : List HostMove) :
    ∃ t, run rs.length (startRun (streamOf rs ++ rest)) = .next t ∧ AnsweredInOrder rs rest t := by
  induction rs using List.reverseRecOn generalizing rest with
  | nil => exact ⟨_, rfl, ⟨rfl, rfl⟩, rfl, rfl, rfl, rfl, by simp⟩
  | append_singleton rs r ih =>
    obtain ⟨t, ht, hans⟩ := ih (.request r.cmd (.word r.opnd) :: rest)
    obtain ⟨u, hu, hans'⟩ := hans.snoc
    refine ⟨u, ?_, hans'⟩
    have hstream : streamOf (rs ++ [r]) ++ rest = streamOf rs ++ .request r.cmd (.word r.opnd) :: rest := by
      simp [streamOf]
    rw [hstream, List.length_append]
    exact run_snoc ht hu

/-- Settles O16: `run_streamOf` with no move to follow; the empty run observes the state it starts in. -/
theorem streamIsAnsweredInOrder : Obligations.StreamIsAnsweredInOrder := by
  intro rs
  obtain ⟨t, ht, h⟩ := run_streamOf rs []
  rw [List.append_nil] at ht
  refine ⟨t, ht, ⟨h.pending, h.ready.2⟩, h.responses, h.index, h.faultMark, h.registers, fun hnil => ?_⟩
  subst hnil
  cases ht
  rfl

end Sys2Proof
end
